-- ==== Sys2Proof/Word.lean ====
section
/-! DEFINITION. The machine's plain bit types (00_scope.md rules R6, R8). -/

namespace Sys2Proof

/-- A register value, a pc or a 4-byte window: 32 bits, unsigned (R6). -/
abbrev Word := BitVec 32

/-- One cell of Memory (R6, R37). -/
abbrev Byte := BitVec 8

/-- A register code: 4 bits, so that every code names one of the sixteen registers (R20). -/
abbrev Reg := BitVec 4

/-- The number of cells of Memory: an integer from 0 to 2^32 (R7, decision D8). -/
abbrev MemLen := Fin 4294967297

/-- A value, or the reason why there is none. -/
inductive Result (ε α : Type) where
  | ok (value : α)
  | error (reason : ε)
  deriving DecidableEq, Repr

end Sys2Proof
end

