-- ==== Sys2Proof/Syntax.lean ====
section
/-! DEFINITION. The instruction set: the formats, the eleven mnemonics, the rows of the opcode table and
the decoded instructions, one constructor per row of spec/opcode_table.json. -/

namespace Sys2Proof

/-- What the format flag `byte0[7:6]` selects (R60); `formatless` is flag `0b10` (R67). -/
inductive Format where
  | regs
  | imm12
  | formatless
  | imm16
  deriving DecidableEq, Repr

/-- The eleven mnemonics of the Opcode Table (R72, R77). -/
inductive Mnemonic where
  | hlt | nop | xor | add | beq | ldl | ldh | wml | wmh | wmb | ldc
  deriving DecidableEq, Repr

/-- The 26 rows of the opcode table: the named opcodes (R72) and the blocks of unassigned ones (R74).
A block's name gives the first and the last opcode byte of it. -/
inductive Row where
  | hlt | nop | xor | add | beq | ldl | ldh | wml | wmh | wmb | ldc
  | unassigned0407 | unassigned080F | unassigned101F | unassigned203F
  | unassigned4141 | unassigned4243 | unassigned4447 | unassigned484F | unassigned505F | unassigned607F
  | unassigned80BF
  | unassignedC6C7 | unassignedC8CF | unassignedD0DF | unassignedE0FF
  deriving DecidableEq, Repr

/-- A decoded instruction. `HLT` and `NOP` keep the two register fields of their format, which they
ignore (R63, R75). An IMM16 instruction keeps no `unused` nibble (R66): the decoder ignores it and the
encoder writes 0 (R79). An unassigned opcode keeps its bytes as they stand, since it has no fields and
prints as raw bytes (R67, R92). -/
inductive Instr where
  | hlt (src dst : Reg)
  | nop (src dst : Reg)
  | xor (src dst : Reg)
  | add (src dst : Reg)
  | beq (a b base : Reg) (imm : BitVec 12)
  | ldl (reg : Reg) (imm16 : BitVec 16)
  | ldh (reg : Reg) (imm16 : BitVec 16)
  | wml (reg : Reg) (imm16 : BitVec 16)
  | wmh (reg : Reg) (imm16 : BitVec 16)
  | wmb (reg : Reg) (imm16 : BitVec 16)
  | ldc (reg : Reg) (imm16 : BitVec 16)
  | unassigned0407 (opcode byte1 : Byte)
  | unassigned080F (opcode byte1 : Byte)
  | unassigned101F (opcode byte1 : Byte)
  | unassigned203F (opcode byte1 : Byte)
  | unassigned4141 (opcode byte1 byte2 byte3 : Byte)
  | unassigned4243 (opcode byte1 byte2 byte3 : Byte)
  | unassigned4447 (opcode byte1 byte2 byte3 : Byte)
  | unassigned484F (opcode byte1 byte2 byte3 : Byte)
  | unassigned505F (opcode byte1 byte2 byte3 : Byte)
  | unassigned607F (opcode byte1 byte2 byte3 : Byte)
  | unassigned80BF (opcode byte1 : Byte)
  | unassignedC6C7 (opcode byte1 byte2 byte3 : Byte)
  | unassignedC8CF (opcode byte1 byte2 byte3 : Byte)
  | unassignedD0DF (opcode byte1 byte2 byte3 : Byte)
  | unassignedE0FF (opcode byte1 byte2 byte3 : Byte)
  deriving DecidableEq, Repr

/-- The row of the opcode table an instruction belongs to. -/
def Instr.row : Instr → Row
  | .hlt _ _ => .hlt
  | .nop _ _ => .nop
  | .xor _ _ => .xor
  | .add _ _ => .add
  | .beq _ _ _ _ => .beq
  | .ldl _ _ => .ldl
  | .ldh _ _ => .ldh
  | .wml _ _ => .wml
  | .wmh _ _ => .wmh
  | .wmb _ _ => .wmb
  | .ldc _ _ => .ldc
  | .unassigned0407 _ _ => .unassigned0407
  | .unassigned080F _ _ => .unassigned080F
  | .unassigned101F _ _ => .unassigned101F
  | .unassigned203F _ _ => .unassigned203F
  | .unassigned4141 _ _ _ _ => .unassigned4141
  | .unassigned4243 _ _ _ _ => .unassigned4243
  | .unassigned4447 _ _ _ _ => .unassigned4447
  | .unassigned484F _ _ _ _ => .unassigned484F
  | .unassigned505F _ _ _ _ => .unassigned505F
  | .unassigned607F _ _ _ _ => .unassigned607F
  | .unassigned80BF _ _ => .unassigned80BF
  | .unassignedC6C7 _ _ _ _ => .unassignedC6C7
  | .unassignedC8CF _ _ _ _ => .unassignedC8CF
  | .unassignedD0DF _ _ _ _ => .unassignedD0DF
  | .unassignedE0FF _ _ _ _ => .unassignedE0FF

end Sys2Proof
end

