-- ==== Sys2Proof/WellFormed.lean ====
section
/-! DEFINITION. Well-formed instructions: an unassigned instruction's opcode byte lies in its row's block
(30_encoding.md R74, the labels of opcode_table.json). Every other field admits all its values (R20). -/

namespace Sys2Proof

/-- The opcode byte lies between the block's first and last byte. -/
def inBlock (first last opcode : Byte) : Bool :=
  decide (first ≤ opcode) && decide (opcode ≤ last)

/-- An instruction the encoding can express. -/
def Instr.wellFormed : Instr → Bool
  | .hlt _ _ => true
  | .nop _ _ => true
  | .xor _ _ => true
  | .add _ _ => true
  | .beq _ _ _ _ => true
  | .ldl _ _ => true
  | .ldh _ _ => true
  | .wml _ _ => true
  | .wmh _ _ => true
  | .wmb _ _ => true
  | .ldc _ _ => true
  | .unassigned0407 opcode _ => inBlock 0x04 0x07 opcode
  | .unassigned080F opcode _ => inBlock 0x08 0x0F opcode
  | .unassigned101F opcode _ => inBlock 0x10 0x1F opcode
  | .unassigned203F opcode _ => inBlock 0x20 0x3F opcode
  | .unassigned4141 opcode _ _ _ => inBlock 0x41 0x41 opcode
  | .unassigned4243 opcode _ _ _ => inBlock 0x42 0x43 opcode
  | .unassigned4447 opcode _ _ _ => inBlock 0x44 0x47 opcode
  | .unassigned484F opcode _ _ _ => inBlock 0x48 0x4F opcode
  | .unassigned505F opcode _ _ _ => inBlock 0x50 0x5F opcode
  | .unassigned607F opcode _ _ _ => inBlock 0x60 0x7F opcode
  | .unassigned80BF opcode _ => inBlock 0x80 0xBF opcode
  | .unassignedC6C7 opcode _ _ _ => inBlock 0xC6 0xC7 opcode
  | .unassignedC8CF opcode _ _ _ => inBlock 0xC8 0xCF opcode
  | .unassignedD0DF opcode _ _ _ => inBlock 0xD0 0xDF opcode
  | .unassignedE0FF opcode _ _ _ => inBlock 0xE0 0xFF opcode

end Sys2Proof
end

