-- ==== Sys2Proof/Decode.lean ====
section
/-! DEFINITION. The decoder, total on every 4-byte window (30_encoding.md R60 to R76), and after it the
encoder: the direct emission entry points (R78 to R82) and the bytes of an instruction (R93). -/

namespace Sys2Proof

/-! ## The opcode table -/

/-- The rows in the order of spec/opcode_table.json. -/
def allRows : List Row :=
  [.hlt, .nop, .xor, .add, .beq, .ldl, .ldh, .wml, .wmh, .wmb, .ldc,
   .unassigned0407, .unassigned080F, .unassigned101F, .unassigned203F,
   .unassigned4141, .unassigned4243, .unassigned4447, .unassigned484F, .unassigned505F, .unassigned607F,
   .unassigned80BF,
   .unassignedC6C7, .unassignedC8CF, .unassignedD0DF, .unassignedE0FF]

/-- The opcode byte of a mnemonic: the Opcode Table, code side (R72, R77). -/
def mnemonicOpcode : Mnemonic → Byte
  | .hlt => 0x00
  | .nop => 0x01
  | .xor => 0x02
  | .add => 0x03
  | .beq => 0x40
  | .ldl => 0xC0
  | .ldh => 0xC1
  | .wml => 0xC2
  | .wmh => 0xC3
  | .wmb => 0xC4
  | .ldc => 0xC5

/-- The bits a row fixes: its opcode byte, or the first opcode byte of its block (R72, R74). -/
def rowMatch : Row → Byte
  | .hlt => mnemonicOpcode .hlt
  | .nop => mnemonicOpcode .nop
  | .xor => mnemonicOpcode .xor
  | .add => mnemonicOpcode .add
  | .beq => mnemonicOpcode .beq
  | .ldl => mnemonicOpcode .ldl
  | .ldh => mnemonicOpcode .ldh
  | .wml => mnemonicOpcode .wml
  | .wmh => mnemonicOpcode .wmh
  | .wmb => mnemonicOpcode .wmb
  | .ldc => mnemonicOpcode .ldc
  | .unassigned0407 => 0x04
  | .unassigned080F => 0x08
  | .unassigned101F => 0x10
  | .unassigned203F => 0x20
  | .unassigned4141 => 0x41
  | .unassigned4243 => 0x42
  | .unassigned4447 => 0x44
  | .unassigned484F => 0x48
  | .unassigned505F => 0x50
  | .unassigned607F => 0x60
  | .unassigned80BF => 0x80
  | .unassignedC6C7 => 0xC6
  | .unassignedC8CF => 0xC8
  | .unassignedD0DF => 0xD0
  | .unassignedE0FF => 0xE0

/-- Which bits of the opcode byte a row fixes: all of them for a named opcode. -/
def rowMask : Row → Byte
  | .unassigned0407 => 0xFC
  | .unassigned080F => 0xF8
  | .unassigned101F => 0xF0
  | .unassigned203F => 0xE0
  | .unassigned4243 => 0xFE
  | .unassigned4447 => 0xFC
  | .unassigned484F => 0xF8
  | .unassigned505F => 0xF0
  | .unassigned607F => 0xE0
  | .unassigned80BF => 0xC0
  | .unassignedC6C7 => 0xFE
  | .unassignedC8CF => 0xF8
  | .unassignedD0DF => 0xF0
  | .unassignedE0FF => 0xE0
  | _ => 0xFF

/-- A row matches an opcode byte when the masked byte is the row's match. -/
def rowMatches (opcode : Byte) (row : Row) : Bool :=
  opcode &&& rowMask row == rowMatch row

/-- The one row of an opcode byte. The rows partition the 256 bytes (`classify_iff_rowMatches`), so the
default is never taken. -/
def classify (opcode : Byte) : Row :=
  (allRows.find? (rowMatches opcode)).getD .unassignedE0FF

/-! ## Formats and lengths -/

/-- The format flag, the top two bits of the opcode byte (R60, R61). -/
def formatFlag (opcode : Byte) : BitVec 2 :=
  opcode.extractLsb' 6 2

/-- The format the flag selects (R60, R67). -/
def formatOf (opcode : Byte) : Format :=
  match (formatFlag opcode).toNat with
  | 0 => .regs
  | 1 => .imm12
  | 2 => .formatless
  | _ => .imm16

/-- The length in bytes, a function of the flag only (R60, R68). -/
def lengthOf (opcode : Byte) : Nat :=
  match formatOf opcode with
  | .regs => 2
  | .imm12 => 4
  | .formatless => 2
  | .imm16 => 4

/-! ## Fields of the window `W` (R76) -/

/-- `W[7:0]`, byte 0 (R61). -/
def opcodeField (w : Word) : Byte := w.extractLsb' 0 8
/-- Byte 1, `W[15:8]` (R42). -/
def byte1Field (w : Word) : Byte := w.extractLsb' 8 8
/-- Byte 2, `W[23:16]` (R42). -/
def byte2Field (w : Word) : Byte := w.extractLsb' 16 8
/-- Byte 3, `W[31:24]` (R42). -/
def byte3Field (w : Word) : Byte := w.extractLsb' 24 8
/-- `src = a = unused = W[15:12]` (R62, R76). -/
def srcField (w : Word) : Reg := w.extractLsb' 12 4
/-- `dst = b = reg = W[11:8]` (R62, R76). -/
def dstField (w : Word) : Reg := w.extractLsb' 8 4
/-- The base register of IMM12, all four bits of `W[23:20]` (R64, R65). -/
def baseField (w : Word) : Reg := w.extractLsb' 20 4
/-- `imm12 = W[19:16] || W[31:24]`, high nibble first (R41, R64, R70). -/
def imm12Field (w : Word) : BitVec 12 := w.extractLsb' 16 4 ++ w.extractLsb' 24 8
/-- `imm16 = W[31:16]` (R66, R69). -/
def imm16Field (w : Word) : BitVec 16 := w.extractLsb' 16 16

/-- The instruction a window holds, on every window (R76). -/
def decodeWindow (w : Word) : Instr :=
  match classify (opcodeField w) with
  | .hlt => .hlt (srcField w) (dstField w)
  | .nop => .nop (srcField w) (dstField w)
  | .xor => .xor (srcField w) (dstField w)
  | .add => .add (srcField w) (dstField w)
  | .beq => .beq (srcField w) (dstField w) (baseField w) (imm12Field w)
  | .ldl => .ldl (dstField w) (imm16Field w)
  | .ldh => .ldh (dstField w) (imm16Field w)
  | .wml => .wml (dstField w) (imm16Field w)
  | .wmh => .wmh (dstField w) (imm16Field w)
  | .wmb => .wmb (dstField w) (imm16Field w)
  | .ldc => .ldc (dstField w) (imm16Field w)
  | .unassigned0407 => .unassigned0407 (opcodeField w) (byte1Field w)
  | .unassigned080F => .unassigned080F (opcodeField w) (byte1Field w)
  | .unassigned101F => .unassigned101F (opcodeField w) (byte1Field w)
  | .unassigned203F => .unassigned203F (opcodeField w) (byte1Field w)
  | .unassigned4141 => .unassigned4141 (opcodeField w) (byte1Field w) (byte2Field w) (byte3Field w)
  | .unassigned4243 => .unassigned4243 (opcodeField w) (byte1Field w) (byte2Field w) (byte3Field w)
  | .unassigned4447 => .unassigned4447 (opcodeField w) (byte1Field w) (byte2Field w) (byte3Field w)
  | .unassigned484F => .unassigned484F (opcodeField w) (byte1Field w) (byte2Field w) (byte3Field w)
  | .unassigned505F => .unassigned505F (opcodeField w) (byte1Field w) (byte2Field w) (byte3Field w)
  | .unassigned607F => .unassigned607F (opcodeField w) (byte1Field w) (byte2Field w) (byte3Field w)
  | .unassigned80BF => .unassigned80BF (opcodeField w) (byte1Field w)
  | .unassignedC6C7 => .unassignedC6C7 (opcodeField w) (byte1Field w) (byte2Field w) (byte3Field w)
  | .unassignedC8CF => .unassignedC8CF (opcodeField w) (byte1Field w) (byte2Field w) (byte3Field w)
  | .unassignedD0DF => .unassignedD0DF (opcodeField w) (byte1Field w) (byte2Field w) (byte3Field w)
  | .unassignedE0FF => .unassignedE0FF (opcodeField w) (byte1Field w) (byte2Field w) (byte3Field w)

/-! ## Bytes -/

/-- Bytes in memory order assembled little-endian into a window: byte 0 is bits 7:0 (R10, R40, R42).
Bytes after the fourth fall off the window; bytes that are not there are bits 0 of it. -/
def windowOf : List Byte → Word
  | [] => 0
  | b :: bs => (windowOf bs <<< 8) ||| b.setWidth 32

/-- Why a list of bytes holds no whole instruction. No 4-byte window is refused (R76). -/
inductive DecodeError where
  /-- There is no byte at all. -/
  | noBytes
  /-- The list ends before the length that the opcode byte's flag selects. -/
  | truncated (opcode : Byte)
  deriving DecidableEq, Repr

/-- The instruction at the head of a list of bytes, and the bytes after it. -/
def decode : List Byte → Result DecodeError (Instr × List Byte)
  | [] => .error .noBytes
  | opcode :: rest =>
    if rest.length < lengthOf opcode - 1 then .error (.truncated opcode)
    else .ok (decodeWindow (windowOf (opcode :: rest.take (lengthOf opcode - 1))), rest.drop (lengthOf opcode - 1))

/-- The lowest four bytes of a number, byte 0 first. -/
def fourBytes (w : Nat) : List Byte :=
  [BitVec.ofNat 8 w, BitVec.ofNat 8 (w / 256), BitVec.ofNat 8 (w / 65536), BitVec.ofNat 8 (w / 16777216)]

/-- The instruction the decoder reads from the bits `w`, of which the opcode table gives `nbits`; the bits
above them are 0. -/
def decodeTableWord (nbits w : Nat) : Option Instr :=
  match decode (fourBytes (w % 2 ^ nbits)) with
  | .ok (i, _) => some i
  | .error _ => none

/-! ## Encoder -/

/-- The bytes of a REGS instruction (R63, R78). -/
def packRegs (opcode : Byte) (src dst : Reg) : List Byte :=
  [opcode, src ++ dst]

/-- The bytes of an IMM12 instruction (R64, R80). -/
def packImm12 (opcode : Byte) (a b base : Reg) (imm : BitVec 12) : List Byte :=
  [opcode, a ++ b, base ++ imm.extractLsb' 8 4, imm.extractLsb' 0 8]

/-- The bytes of an IMM16 instruction, its `unused` nibble 0 (R66, R79). -/
def packImm16 (opcode : Byte) (reg : Reg) (imm16 : BitVec 16) : List Byte :=
  [opcode, (0 : BitVec 4) ++ reg, imm16.extractLsb' 0 8, imm16.extractLsb' 8 8]

/-- `encode-REGS(opcode, src, dst)` on any integers: each is cut to its field's low bits (R78, R82). -/
def emitRegs (opcode src dst : Int) : List Byte :=
  packRegs (BitVec.ofInt 8 opcode) (BitVec.ofInt 4 src) (BitVec.ofInt 4 dst)

/-- `encode-IMM12(opcode, a, b, dst, offset)`; `offset` is the raw field, not a signed number
(R71, R80, R82). -/
def emitImm12 (opcode a b dst offset : Int) : List Byte :=
  packImm12 (BitVec.ofInt 8 opcode) (BitVec.ofInt 4 a) (BitVec.ofInt 4 b) (BitVec.ofInt 4 dst)
    (BitVec.ofInt 12 offset)

/-- `encode-IMM16(opcode, dst, value)` (R79, R82). -/
def emitImm16 (opcode dst value : Int) : List Byte :=
  packImm16 (BitVec.ofInt 8 opcode) (BitVec.ofInt 4 dst) (BitVec.ofInt 16 value)

/-- The bytes of an instruction, in memory order. -/
def encode : Instr → List Byte
  | .hlt src dst => packRegs (mnemonicOpcode .hlt) src dst
  | .nop src dst => packRegs (mnemonicOpcode .nop) src dst
  | .xor src dst => packRegs (mnemonicOpcode .xor) src dst
  | .add src dst => packRegs (mnemonicOpcode .add) src dst
  | .beq a b base imm => packImm12 (mnemonicOpcode .beq) a b base imm
  | .ldl reg imm16 => packImm16 (mnemonicOpcode .ldl) reg imm16
  | .ldh reg imm16 => packImm16 (mnemonicOpcode .ldh) reg imm16
  | .wml reg imm16 => packImm16 (mnemonicOpcode .wml) reg imm16
  | .wmh reg imm16 => packImm16 (mnemonicOpcode .wmh) reg imm16
  | .wmb reg imm16 => packImm16 (mnemonicOpcode .wmb) reg imm16
  | .ldc reg imm16 => packImm16 (mnemonicOpcode .ldc) reg imm16
  | .unassigned0407 opcode byte1 => [opcode, byte1]
  | .unassigned080F opcode byte1 => [opcode, byte1]
  | .unassigned101F opcode byte1 => [opcode, byte1]
  | .unassigned203F opcode byte1 => [opcode, byte1]
  | .unassigned4141 opcode byte1 byte2 byte3 => [opcode, byte1, byte2, byte3]
  | .unassigned4243 opcode byte1 byte2 byte3 => [opcode, byte1, byte2, byte3]
  | .unassigned4447 opcode byte1 byte2 byte3 => [opcode, byte1, byte2, byte3]
  | .unassigned484F opcode byte1 byte2 byte3 => [opcode, byte1, byte2, byte3]
  | .unassigned505F opcode byte1 byte2 byte3 => [opcode, byte1, byte2, byte3]
  | .unassigned607F opcode byte1 byte2 byte3 => [opcode, byte1, byte2, byte3]
  | .unassigned80BF opcode byte1 => [opcode, byte1]
  | .unassignedC6C7 opcode byte1 byte2 byte3 => [opcode, byte1, byte2, byte3]
  | .unassignedC8CF opcode byte1 byte2 byte3 => [opcode, byte1, byte2, byte3]
  | .unassignedD0DF opcode byte1 byte2 byte3 => [opcode, byte1, byte2, byte3]
  | .unassignedE0FF opcode byte1 byte2 byte3 => [opcode, byte1, byte2, byte3]

end Sys2Proof
end

