-- ==== Sys2Proof/Config.lean ====
section
/-! DEFINITION. The values the model gives, at State.reset, to the launch inputs for which the spec
states no value (00_scope.md R7, 10_state.md R39, decision D12). A launch sets them: they are fields of
State, and no rule of the spec rests on a value named here. -/

namespace Sys2Proof.Config

/-- DESIGN CHOICE (unsafe, log 1): `REGS_INIT` has no value in the spec (R24). -/
def resetRegister : Word := 0

/-- DESIGN CHOICE (unsafe, log 3): `MEMLEN` has no value in the spec; the whole 32-bit space. -/
def resetMemLen : MemLen := 4294967296

/-- DESIGN CHOICE (unsafe, log 4): `INIT_PC` has no value in the spec (R32). -/
def resetInitPc : Word := 0

/-- DESIGN CHOICE (unsafe, log 5): `END_PC` is unspecified until the stop (R33). -/
def resetEndPc : Word := 0

/-- The spec's own default of `STRICT_FAULTS` (R7). -/
def defaultStrictFaults : Bool := false

/-- The spec's own default of `ASM_IMM16_TEXT` (R7). -/
def defaultImm16Text : Bool := false

end Sys2Proof.Config
end

