-- ==== Sys2Proof/Machine/State.lean ====
section
/-! DEFINITION. The state of one run (10_state.md R20 to R39), plain data, and the state at reset. -/

namespace Sys2Proof.Machine

/-- Memory: the cells that hold a value, by rising address. -/
abbrev Memory := List Host.Cell

/-- `STATUS`, the run state as the caller sees it (R34, R150). Its 2-bit code is `statusCode`. -/
inductive Status where
  | running
  /-- Stopped by `HLT`, the success path (R152). -/
  | halted
  /-- Stopped by the bounds check (R151). -/
  | fetchOutOfBounds
  /-- Stopped by an opcode without a dispatch case under `STRICT_FAULTS`. It carries the raw opcode byte
  that the stop reports (R153: "a model returns it in the stop value"). -/
  | invalidOpcode (opcode : Byte)
  deriving DecidableEq, Repr

/-- What the observer does next. MODEL'S OWN (log 6): an input of the machine. -/
inductive Reply where
  /-- The acknowledgment of the pending or the next notification, with any value (R108, R167). -/
  | acknowledge (value : Nat)
  /-- The observer closes the channel during the pending or the next suspension (R168, U1). -/
  | abortWhenNotified
  /-- The observer closes the channel at once, whether or not the core is suspended (R168, U1). -/
  | abort
  deriving DecidableEq, Repr

/-- The notification channel (R35). -/
structure Channel where
  /-- The address of the instruction just executed, until it is acknowledged. -/
  pending : Option Word
  /-- Set by the core at the stop. -/
  closed : Bool
  /-- MODEL'S OWN (log 6): what the observer has still to do, the next thing first. -/
  replies : List Reply
  deriving DecidableEq, Repr

/-- All the state the spec gives the machine. -/
structure State where
  /-- `x[0]`..`x[15]` (R20). -/
  regs : Vector Word 16
  /-- The program counter, a byte offset into Memory (R25). -/
  pc : Word
  /-- Memory's cells (R37). -/
  mem : Memory
  /-- `MEMLEN`: cells exist at the addresses `0 .. MEMLEN-1` (R37). -/
  memLen : MemLen
  /-- `INIT_PC`, a launch input the core never writes (R32). -/
  initPc : Word
  /-- `END_PC`, written by the core at the stop (R33). -/
  endPc : Word
  /-- `STATUS` (R34). -/
  status : Status
  /-- `STRICT_FAULTS`, constant during a run (R7). -/
  strictFaults : Bool
  /-- The channel; `HOOK` is whether there is one (R35). -/
  channel : Option Channel
  deriving DecidableEq, Repr

/-- Why the model stops where the spec gives no state to go on with. The spec's own stops are no faults:
they are next states with a `Status` (R150). -/
inductive Fault where
  /-- Raised by the fetch for a byte inside Memory to which neither the caller nor `State.reset` gave a
  value. Safe (log 2): the spec calls that byte arbitrary (U12). -/
  | unwrittenByte (address : Nat)
  /-- Raised by a read at or past `MEMLEN`, where no cell exists. Safe: the bounds check keeps every step
  from it (R44). -/
  | addressOutsideMemory (address : Nat)
  deriving DecidableEq, Repr

/-- Why the model gives a step no meaning. -/
inductive Refusal where
  /-- Raised by an arm of `exec` whose instruction has no meaning yet. Safe. No arm raises it. -/
  | notModelled (mnemonic : String)
  /-- Raised by a running core, suspended or not, whose observer closes the channel. Safe (log 7): the spec
  leaves what follows undefined (R168, U1). -/
  | channelAborted
  deriving DecidableEq, Repr

/-- The start of a run on a context in which the caller has set nothing (R39, R175). The values of
`Config` stand for launch inputs without a value in the spec (log 1 to 6). -/
def State.reset : State where
  regs := Vector.replicate 16 Config.resetRegister
  pc := Config.resetInitPc
  mem := []
  memLen := Config.resetMemLen
  initPc := Config.resetInitPc
  endPc := Config.resetEndPc
  status := .running
  strictFaults := Config.defaultStrictFaults
  channel := none

end Sys2Proof.Machine
end

