-- ==== Sys2Proof/Machine/Ops.lean ====
section
/-! DEFINITION. The named operations over registers, Memory, the run and the channel. The machine takes no
exception and returns from none (60_exceptions.md R154, R159); the shared operation in that place is the
stop that ends a run, `State.stop`. -/

namespace Sys2Proof.Machine

/-! ## General registers -/

/-- `x[i]`: every code names a register and none is special (R20, R22). -/
def State.getReg (s : State) (i : Reg) : Word :=
  s.regs[i.toNat]'i.isLt

/-- `x[i] <- v` (R10). -/
def State.setReg (s : State) (i : Reg) (v : Word) : State :=
  { s with regs := s.regs.set i.toNat v i.isLt }

/-! ## Memory -/

/-- What an address that no cell lists reads as: no value. DESIGN CHOICE (safe, log 2); the spec says that
nothing is implicitly zero (D26, U12). -/
def Memory.unlisted : Option Byte := none

/-- The value of the cell at an address. -/
def Memory.byteAt : Memory → Nat → Option Byte
  | [], _ => Memory.unlisted
  | (k, b) :: m, a => if k = a then some b else Memory.byteAt m a

/-- Memory with one cell given a value. No instruction does this (R47); the caller does. -/
def Memory.write : Memory → Nat → Byte → Memory
  | [], a, v => [(a, v)]
  | (k, b) :: m, a, v =>
    if a < k then (a, v) :: (k, b) :: m
    else if a = k then (a, v) :: m
    else (k, b) :: Memory.write m a v

/-- Consecutive cells given values, from `a` upwards. -/
def Memory.writeAll : Memory → Nat → List Byte → Memory
  | m, _, [] => m
  | m, a, b :: bs => Memory.writeAll (Memory.write m a b) (a + 1) bs

/-- The canonical form: addresses strictly rising. An unlisted address reads as no value, so no entry
equals what an unlisted address reads as. -/
def Memory.wf : Memory → Bool
  | [] => true
  | [_] => true
  | (a, _) :: (b, y) :: m => decide (a < b) && Memory.wf ((b, y) :: m)

/-- `MemByte(a)`: the byte at an address inside Memory (R10, R37). -/
def State.readByte (s : State) (a : Nat) : Result Fault Byte :=
  if a < s.memLen.val then
    match s.mem.byteAt a with
    | some b => .ok b
    | none => .error (.unwrittenByte a)
  else .error (.addressOutsideMemory a)

/-- The `n` bytes at `a .. a+n-1`, in memory order, read one after another. -/
def State.readBytes (s : State) (a : Nat) : Nat → Result Fault (List Byte)
  | 0 => .ok []
  | n + 1 =>
    match s.readByte a with
    | .error f => .error f
    | .ok b =>
      match s.readBytes (a + 1) n with
      | .error f => .error f
      | .ok bs => .ok (b :: bs)

/-- Bytes assembled little-endian into an unsigned value (R10). -/
def littleEndian : List Byte → Nat
  | [] => 0
  | b :: bs => b.toNat + 256 * littleEndian bs

/-- `MemRead(a, n)` (R10). -/
def State.memRead (s : State) (a n : Nat) : Result Fault Nat :=
  match s.readBytes a n with
  | .error f => .error f
  | .ok bs => .ok (littleEndian bs)

/-! ## The channel -/

/-- The core sends the address of the instruction just executed (R108). -/
def sendOn (c : Channel) (here : Word) : Channel :=
  { c with pending := some here }

/-- The core closes the channel at the stop (R35, R107). -/
def closeChannel (c : Channel) : Channel :=
  { c with closed := true }

/-- A notification is pending and unacknowledged: the core is suspended (R35). -/
def State.suspended (s : State) : Bool :=
  match s.channel with
  | some c => c.pending.isSome
  | none => false

/-- The observer closes the channel before anything else happens: the run has no meaning from here on,
whatever the core was about to do (R168, U1). -/
def State.aborted (s : State) : Bool :=
  match s.channel with
  | some c => c.replies.head? == some .abort
  | none => false

/-- A suspended core: it takes the observer's next answer (R108), whose value it ignores, and stays as it
is while there is none. An observer that closes the channel leaves no meaning (R168, U1). -/
def State.awaitReply (s : State) : Host.Outcome State Fault Refusal :=
  match s.channel with
  | none => .next s
  | some c =>
    match c.replies with
    | [] => .next s
    | .acknowledge _ :: rest => .next { s with channel := some { c with pending := none, replies := rest } }
    | .abortWhenNotified :: _ => .refused .channelAborted
    | .abort :: _ => .refused .channelAborted

/-! ## The end of a step and the end of a run -/

/-- Commit (R106) and notify (R108): the pc becomes the cursor and, with the hook attached, the address
the pc held is sent. -/
def State.commit (s : State) (cursor : Word) : State :=
  { s with pc := cursor, channel := s.channel.map fun c => sendOn c s.pc }

/-- The stop: what ends a run saves and changes, and nothing else (R107, R158). -/
def State.stop (s : State) (cause : Status) : State :=
  { s with endPc := s.pc, status := cause, channel := s.channel.map closeChannel }

/-- An opcode with no dispatch case: skipped, or under `STRICT_FAULTS` a stop that leaves the pc on the
instruction (R140, R142, R153). -/
def State.noDispatch (s : State) (opcode : Byte) : State :=
  if s.strictFaults then s.stop (.invalidOpcode opcode)
  else s.commit (s.pc + BitVec.ofNat 32 (lengthOf opcode))

/-- `STATUS` as the caller reads it (R34, R150). -/
def statusCode : Status → BitVec 2
  | .running => 0
  | .halted => 1
  | .fetchOutOfBounds => 2
  | .invalidOpcode _ => 3

/-- The start of a run on the context the state holds, a first start or a second one (R39, R100, R175):
registers, Memory and `END_PC` stay as they are, and an attached channel is open with nothing pending. -/
def State.startRun (s : State) : State :=
  { s with
    pc := s.initPc
    status := .running
    channel := s.channel.map fun c => { c with pending := none, closed := false } }

/-! ## Fetch -/

/-- The bounds check, on integers and the same for every instruction (R44, R101). -/
def State.fetchInBounds (s : State) : Bool :=
  decide (s.pc.toNat + 4 ≤ s.memLen.val)

/-- Fetch and decode at the pc: the opcode byte, then as many bytes as its format has (R43, R102 to R104). -/
def State.fetch (s : State) : Result Fault Instr :=
  match s.readByte s.pc.toNat with
  | .error f => .error f
  | .ok opcode =>
    match s.readBytes (s.pc.toNat + 1) (lengthOf opcode - 1) with
    | .error f => .error f
    | .ok rest => .ok (decodeWindow (windowOf (opcode :: rest)))

end Sys2Proof.Machine
end

