-- ==== Sys2Proof/Machine/Alu.lean ====
section
/-! DEFINITION. The ALU instructions (42_alu.md): both operands are read before the write. -/

namespace Sys2Proof.Machine

/-- `XOR src, dst` (R125). -/
def execXor (src dst : Reg) (s : State) : Host.Outcome State Fault Refusal :=
  .next ((s.setReg dst (s.getReg dst ^^^ s.getReg src)).commit (s.pc + 2))

/-- `ADD src, dst`, modulo 2^32, the carry recorded nowhere (R126). -/
def execAdd (src dst : Reg) (s : State) : Host.Outcome State Fault Refusal :=
  .next ((s.setReg dst (s.getReg dst + s.getReg src)).commit (s.pc + 2))

end Sys2Proof.Machine
end

