-- ==== Sys2Proof/Machine/Flags.lean ====
section
/-! DEFINITION. Conditions. The machine has no status flag, condition code or predicate (10_state.md R30):
`ADD` records no carry or overflow, and the one condition is the comparison `BEQ` makes. -/

namespace Sys2Proof.Machine

/-- `BEQ`'s condition: the two full 32-bit values are equal (R30, R130). -/
def branchTaken (x y : Word) : Bool :=
  x == y

end Sys2Proof.Machine
end

