-- ==== Sys2Proof/Machine/Operands.lean ====
section
/-! DEFINITION. What an operand or an immediate stands for: the sign-and-magnitude offset, the branch
target, the half-words of a register (30_encoding.md R69 to R71, 43_branch.md R131, 44 R135, R136). -/

namespace Sys2Proof.Machine

/-- The offset a 12-bit field decodes to: bit 11 is the sign, bits 10:0 the magnitude (R10, R70). -/
def smag12 (field : BitVec 12) : Int :=
  if field.msb then -((field.extractLsb' 0 11).toNat : Int) else ((field.extractLsb' 0 11).toNat : Int)

/-- The field that makes `BEQ` add the offset `o`, for `-2047 <= o <= 2047` (R71, R184). -/
def offsetField (o : Int) : BitVec 12 :=
  if 0 ≤ o then BitVec.ofInt 12 o else 0x800 ||| BitVec.ofInt 12 (-o)

/-- `base + off` formed as an integer and then cut to 32 bits (R131). -/
def branchTarget (base : Word) (field : BitVec 12) : Word :=
  BitVec.ofInt 32 ((base.toNat : Int) + smag12 field)

/-- `(x & 0xFFFF0000) | imm16` (R135). -/
def withLowHalf (x : Word) (imm16 : BitVec 16) : Word :=
  (x &&& 0xFFFF0000) ||| imm16.setWidth 32

/-- `(imm16 << 16) | (x & 0x0000FFFF)` (R136). -/
def withHighHalf (x : Word) (imm16 : BitVec 16) : Word :=
  (imm16.setWidth 32 <<< 16) ||| (x &&& 0x0000FFFF)

end Sys2Proof.Machine
end

