-- ==== Sys2Proof/Machine/Branch.lean ====
section
/-! DEFINITION. The conditional branch (43_branch.md). -/

namespace Sys2Proof.Machine

/-- `BEQ a, b, dst, imm`: to base register plus offset if the two registers are equal, else past the
instruction's four bytes (R130). -/
def execBeq (a b base : Reg) (imm : BitVec 12) (s : State) : Host.Outcome State Fault Refusal :=
  .next (s.commit
    (if branchTaken (s.getReg a) (s.getReg b) then branchTarget (s.getReg base) imm else s.pc + 4))

end Sys2Proof.Machine
end

