-- ==== Sys2Proof/Machine/LoadImmediate.lean ====
section
/-! DEFINITION. The load-immediate instructions (44_load_immediate.md). -/

namespace Sys2Proof.Machine

/-- `LDL reg, imm16` (R135). -/
def execLdl (reg : Reg) (imm16 : BitVec 16) (s : State) : Host.Outcome State Fault Refusal :=
  .next ((s.setReg reg (withLowHalf (s.getReg reg) imm16)).commit (s.pc + 4))

/-- `LDH reg, imm16` (R136). -/
def execLdh (reg : Reg) (imm16 : BitVec 16) (s : State) : Host.Outcome State Fault Refusal :=
  .next ((s.setReg reg (withHighHalf (s.getReg reg) imm16)).commit (s.pc + 4))

end Sys2Proof.Machine
end

