-- ==== Sys2Proof/Machine/Reserved.lean ====
section
/-! DEFINITION. The reserved opcodes (45_reserved.md R140): 4-byte no-ops, and under `STRICT_FAULTS` the
stop `INVALID_OPCODE` with the opcode byte. -/

namespace Sys2Proof.Machine

/-- `WML` (R140). -/
def execWml (_reg : Reg) (_imm16 : BitVec 16) (s : State) : Host.Outcome State Fault Refusal :=
  .next (s.noDispatch (mnemonicOpcode .wml))

/-- `WMH` (R140). -/
def execWmh (_reg : Reg) (_imm16 : BitVec 16) (s : State) : Host.Outcome State Fault Refusal :=
  .next (s.noDispatch (mnemonicOpcode .wmh))

/-- `WMB` (R140). -/
def execWmb (_reg : Reg) (_imm16 : BitVec 16) (s : State) : Host.Outcome State Fault Refusal :=
  .next (s.noDispatch (mnemonicOpcode .wmb))

/-- `LDC` (R140). -/
def execLdc (_reg : Reg) (_imm16 : BitVec 16) (s : State) : Host.Outcome State Fault Refusal :=
  .next (s.noDispatch (mnemonicOpcode .ldc))

end Sys2Proof.Machine
end

