-- ==== Sys2Proof/Machine/System.lean ====
section
/-! DEFINITION. The system instructions (41_system.md). -/

namespace Sys2Proof.Machine

/-- `HLT`: the pc moves past the instruction and the run stops, with no notification (R120). -/
def execHlt (_src _dst : Reg) (s : State) : Host.Outcome State Fault Refusal :=
  .next (State.stop { s with pc := s.pc + 2 } .halted)

/-- `NOP` (R121). -/
def execNop (_src _dst : Reg) (s : State) : Host.Outcome State Fault Refusal :=
  .next (s.commit (s.pc + 2))

end Sys2Proof.Machine
end

