-- ==== Sys2Proof/Machine/Unassigned.lean ====
section
/-! DEFINITION. The unassigned opcodes (45_reserved.md R142), block by block: no-ops of the length their
format flag gives, and under `STRICT_FAULTS` the stop `INVALID_OPCODE` with the opcode byte. -/

namespace Sys2Proof.Machine

/-- Opcode bytes `0x04` to `0x07`, 2 bytes (R142). -/
def execUnassigned0407 (opcode _byte1 : Byte) (s : State) : Host.Outcome State Fault Refusal :=
  .next (s.noDispatch opcode)

/-- Opcode bytes `0x08` to `0x0F`, 2 bytes (R142). -/
def execUnassigned080F (opcode _byte1 : Byte) (s : State) : Host.Outcome State Fault Refusal :=
  .next (s.noDispatch opcode)

/-- Opcode bytes `0x10` to `0x1F`, 2 bytes (R142). -/
def execUnassigned101F (opcode _byte1 : Byte) (s : State) : Host.Outcome State Fault Refusal :=
  .next (s.noDispatch opcode)

/-- Opcode bytes `0x20` to `0x3F`, 2 bytes (R142). -/
def execUnassigned203F (opcode _byte1 : Byte) (s : State) : Host.Outcome State Fault Refusal :=
  .next (s.noDispatch opcode)

/-- Opcode bytes `0x41` to `0x41`, 4 bytes (R142). -/
def execUnassigned4141 (opcode _byte1 _byte2 _byte3 : Byte) (s : State) : Host.Outcome State Fault Refusal :=
  .next (s.noDispatch opcode)

/-- Opcode bytes `0x42` to `0x43`, 4 bytes (R142). -/
def execUnassigned4243 (opcode _byte1 _byte2 _byte3 : Byte) (s : State) : Host.Outcome State Fault Refusal :=
  .next (s.noDispatch opcode)

/-- Opcode bytes `0x44` to `0x47`, 4 bytes (R142). -/
def execUnassigned4447 (opcode _byte1 _byte2 _byte3 : Byte) (s : State) : Host.Outcome State Fault Refusal :=
  .next (s.noDispatch opcode)

/-- Opcode bytes `0x48` to `0x4F`, 4 bytes (R142). -/
def execUnassigned484F (opcode _byte1 _byte2 _byte3 : Byte) (s : State) : Host.Outcome State Fault Refusal :=
  .next (s.noDispatch opcode)

/-- Opcode bytes `0x50` to `0x5F`, 4 bytes (R142). -/
def execUnassigned505F (opcode _byte1 _byte2 _byte3 : Byte) (s : State) : Host.Outcome State Fault Refusal :=
  .next (s.noDispatch opcode)

/-- Opcode bytes `0x60` to `0x7F`, 4 bytes (R142). -/
def execUnassigned607F (opcode _byte1 _byte2 _byte3 : Byte) (s : State) : Host.Outcome State Fault Refusal :=
  .next (s.noDispatch opcode)

/-- Opcode bytes `0x80` to `0xBF`, 2 bytes (R142). -/
def execUnassigned80BF (opcode _byte1 : Byte) (s : State) : Host.Outcome State Fault Refusal :=
  .next (s.noDispatch opcode)

/-- Opcode bytes `0xC6` to `0xC7`, 4 bytes (R142). -/
def execUnassignedC6C7 (opcode _byte1 _byte2 _byte3 : Byte) (s : State) : Host.Outcome State Fault Refusal :=
  .next (s.noDispatch opcode)

/-- Opcode bytes `0xC8` to `0xCF`, 4 bytes (R142). -/
def execUnassignedC8CF (opcode _byte1 _byte2 _byte3 : Byte) (s : State) : Host.Outcome State Fault Refusal :=
  .next (s.noDispatch opcode)

/-- Opcode bytes `0xD0` to `0xDF`, 4 bytes (R142). -/
def execUnassignedD0DF (opcode _byte1 _byte2 _byte3 : Byte) (s : State) : Host.Outcome State Fault Refusal :=
  .next (s.noDispatch opcode)

/-- Opcode bytes `0xE0` to `0xFF`, 4 bytes (R142). -/
def execUnassignedE0FF (opcode _byte1 _byte2 _byte3 : Byte) (s : State) : Host.Outcome State Fault Refusal :=
  .next (s.noDispatch opcode)

end Sys2Proof.Machine
end

