-- ==== Sys2Proof/Machine/Dispatch.lean ====
section
/-! DEFINITION. The dispatch on the decoded instruction (40_execution_cycle.md R105), one arm per
constructor. -/

namespace Sys2Proof.Machine

def exec (i : Instr) (s : State) : Host.Outcome State Fault Refusal :=
  match i with
  | .hlt src dst => Sys2Proof.Machine.execHlt src dst s
  | .nop src dst => Sys2Proof.Machine.execNop src dst s
  | .xor src dst => Sys2Proof.Machine.execXor src dst s
  | .add src dst => Sys2Proof.Machine.execAdd src dst s
  | .beq a b base imm => Sys2Proof.Machine.execBeq a b base imm s
  | .ldl reg imm16 => Sys2Proof.Machine.execLdl reg imm16 s
  | .ldh reg imm16 => Sys2Proof.Machine.execLdh reg imm16 s
  | .wml reg imm16 => Sys2Proof.Machine.execWml reg imm16 s
  | .wmh reg imm16 => Sys2Proof.Machine.execWmh reg imm16 s
  | .wmb reg imm16 => Sys2Proof.Machine.execWmb reg imm16 s
  | .ldc reg imm16 => Sys2Proof.Machine.execLdc reg imm16 s
  | .unassigned0407 opcode byte1 => Sys2Proof.Machine.execUnassigned0407 opcode byte1 s
  | .unassigned080F opcode byte1 => Sys2Proof.Machine.execUnassigned080F opcode byte1 s
  | .unassigned101F opcode byte1 => Sys2Proof.Machine.execUnassigned101F opcode byte1 s
  | .unassigned203F opcode byte1 => Sys2Proof.Machine.execUnassigned203F opcode byte1 s
  | .unassigned4141 opcode byte1 byte2 byte3 => Sys2Proof.Machine.execUnassigned4141 opcode byte1 byte2 byte3 s
  | .unassigned4243 opcode byte1 byte2 byte3 => Sys2Proof.Machine.execUnassigned4243 opcode byte1 byte2 byte3 s
  | .unassigned4447 opcode byte1 byte2 byte3 => Sys2Proof.Machine.execUnassigned4447 opcode byte1 byte2 byte3 s
  | .unassigned484F opcode byte1 byte2 byte3 => Sys2Proof.Machine.execUnassigned484F opcode byte1 byte2 byte3 s
  | .unassigned505F opcode byte1 byte2 byte3 => Sys2Proof.Machine.execUnassigned505F opcode byte1 byte2 byte3 s
  | .unassigned607F opcode byte1 byte2 byte3 => Sys2Proof.Machine.execUnassigned607F opcode byte1 byte2 byte3 s
  | .unassigned80BF opcode byte1 => Sys2Proof.Machine.execUnassigned80BF opcode byte1 s
  | .unassignedC6C7 opcode byte1 byte2 byte3 => Sys2Proof.Machine.execUnassignedC6C7 opcode byte1 byte2 byte3 s
  | .unassignedC8CF opcode byte1 byte2 byte3 => Sys2Proof.Machine.execUnassignedC8CF opcode byte1 byte2 byte3 s
  | .unassignedD0DF opcode byte1 byte2 byte3 => Sys2Proof.Machine.execUnassignedD0DF opcode byte1 byte2 byte3 s
  | .unassignedE0FF opcode byte1 byte2 byte3 => Sys2Proof.Machine.execUnassignedE0FF opcode byte1 byte2 byte3 s

end Sys2Proof.Machine
end

