-- ==== Sys2Proof/Machine/Step.lean ====
section
/-! DEFINITION. One step (40_execution_cycle.md R100 to R112) and the placing of an instruction where the
next step fetches it. -/

namespace Sys2Proof.Machine

/-- One step of the core. A stopped core does nothing more (R107, R158); a run whose channel the observer
closes has no meaning (R168, U1); a suspended core waits for its observer (R108); otherwise the bounds check comes first, then fetch, decode and dispatch (R110, R157). -/
def step (s : State) : Host.Outcome State Fault Refusal :=
  if s.status ≠ .running then .next s
  else if s.aborted then .refused .channelAborted
  else if s.suspended then s.awaitReply
  else if s.fetchInBounds then
    match s.fetch with
    | .ok i => exec i s
    | .error f => .fault f
  else .next (s.stop .fetchOutOfBounds)

/-- Where an instruction can be placed for the next step: the pc, or 0 if no Memory reaches four bytes
past the pc. -/
def State.fetchSite (s : State) : Word :=
  if s.pc.toNat + 4 ≤ 4294967296 then s.pc else 0

/-- The load of one instruction where the next step fetches it (log 14). It changes what that takes: the
cells, `MEMLEN` where Memory is too short, and `STATUS`, the pending notification, an observer about to
close the channel and the pc where the core would not fetch at its pc at all. -/
def State.withFetchWord (s : State) (nbits w : Nat) : State :=
  { s with
    pc := s.fetchSite
    mem := s.mem.writeAll s.fetchSite.toNat (fourBytes (w % 2 ^ nbits))
    memLen := max s.memLen (Fin.ofNat 4294967297 (s.fetchSite.toNat + 4))
    status := .running
    channel := s.channel.map fun c =>
      { pending := none, closed := false, replies := c.replies.dropWhile (· == .abort) } }

end Sys2Proof.Machine
end

