-- ==== Sys2Proof/Machine/Assembler.lean ====
section
/-! DEFINITION. The name tables, the textual assembler and the listing (10_state.md R21, 30_encoding.md R77,
R83 to R92). Pure functions used before a run; no part of a step. A line or a name is its list of
characters. -/

namespace Sys2Proof.Machine

/-- Text as its characters. -/
abbrev Text := List Char

/-- The results of the assembler that are no bytes (R89). -/
inductive AsmError where
  | syntaxError
  | unknownInstruction
  | unknownRegister
  deriving DecidableEq, Repr

/-! ## Name tables -/

/-- The mnemonics in opcode order. -/
def allMnemonics : List Mnemonic :=
  [.hlt, .nop, .xor, .add, .beq, .ldl, .ldh, .wml, .wmh, .wmb, .ldc]

/-- Mnemonic side of the Opcode Table, in capital letters (R72, R77). -/
def mnemonicName : Mnemonic → Text
  | .hlt => ['H', 'L', 'T']
  | .nop => ['N', 'O', 'P']
  | .xor => ['X', 'O', 'R']
  | .add => ['A', 'D', 'D']
  | .beq => ['B', 'E', 'Q']
  | .ldl => ['L', 'D', 'L']
  | .ldh => ['L', 'D', 'H']
  | .wml => ['W', 'M', 'L']
  | .wmh => ['W', 'M', 'H']
  | .wmb => ['W', 'M', 'B']
  | .ldc => ['L', 'D', 'C']

/-- The exact, case-sensitive look-up of a mnemonic (R77, D17). -/
def mnemonicOf (name : Text) : Option Mnemonic :=
  allMnemonics.find? fun m => mnemonicName m == name

/-- The opcode table read from code to mnemonic (R77). -/
def mnemonicOfOpcode (opcode : Byte) : Option Mnemonic :=
  allMnemonics.find? fun m => mnemonicOpcode m == opcode

/-- The sixteen register codes. -/
def allRegs : List Reg :=
  (List.range 16).map (BitVec.ofNat 4)

/-- Code `i` is `r` and the `i`-th letter from `a` (R21, D16). -/
def regName (r : Reg) : Text :=
  ['r', Char.ofNat (97 + r.toNat)]

/-- The exact look-up of a register name (R77, D17). -/
def regOf (name : Text) : Option Reg :=
  allRegs.find? fun r => regName r == name

/-! ## Tokens and literals -/

/-- Space, tab and comma (R83). -/
def isSeparator (c : Char) : Bool :=
  c == ' ' || c == '\t' || c == ','

/-- The tokens of a text, given the characters of the token under way. -/
def tokensFrom (word : Text) : Text → List Text
  | [] => if word = [] then [] else [word]
  | c :: cs =>
    if isSeparator c then
      if word = [] then tokensFrom [] cs else word :: tokensFrom [] cs
    else tokensFrom (word ++ [c]) cs

/-- The tokens of a line: runs of separators separate, and no token is empty (R83, D21). -/
def tokens (line : Text) : List Text :=
  tokensFrom [] line

/-- The value of a hexadecimal digit of either case (R88, D20). -/
def hexDigit (c : Char) : Option Nat :=
  if '0'.toNat ≤ c.toNat ∧ c.toNat ≤ '9'.toNat then some (c.toNat - '0'.toNat)
  else if 'a'.toNat ≤ c.toNat ∧ c.toNat ≤ 'f'.toNat then some (c.toNat - 'a'.toNat + 10)
  else if 'A'.toNat ≤ c.toNat ∧ c.toNat ≤ 'F'.toNat then some (c.toNat - 'A'.toNat + 10)
  else none

/-- Digits read base 16 after a value already read; none if a character is no digit. -/
def hexFrom (value : Nat) : Text → Option Nat
  | [] => some value
  | c :: cs =>
    match hexDigit c with
    | some d => hexFrom (16 * value + d) cs
    | none => none

/-- A bare hexadecimal literal of value at most `limit` (R88). -/
def hexLiteral (limit : Nat) (token : Text) : Option Nat :=
  if token = [] then none
  else
    match hexFrom 0 token with
    | some v => if v ≤ limit then some v else none
    | none => none

/-! ## The assembler -/

/-- The REGS text form: no operand, or source then destination (R85). -/
def assembleRegs (opcode : Byte) : List Text → Result AsmError (List Byte)
  | [] => .ok (packRegs opcode 0 0)
  | [src, dst] =>
    match regOf src, regOf dst with
    | some s, some d => .ok (packRegs opcode s d)
    | _, _ => .error .unknownRegister
  | _ => .error .syntaxError

/-- The IMM12 text form: three registers, then the raw field (R86, R89). -/
def assembleImm12 (opcode : Byte) : List Text → Result AsmError (List Byte)
  | [a, b, dst, literal] =>
    match regOf a, regOf b, regOf dst with
    | some ra, some rb, some rd =>
      match hexLiteral 0xFFF literal with
      | some v => .ok (packImm12 opcode ra rb rd (BitVec.ofNat 12 v))
      | none => .error .syntaxError
    | _, _, _ => .error .unknownRegister
  | _ => .error .syntaxError

/-- The IMM16 text form, which only `ASM_IMM16_TEXT` turns on (R87, D19). -/
def assembleImm16 (imm16Text : Bool) (opcode : Byte) (operands : List Text) : Result AsmError (List Byte) :=
  if imm16Text then
    match operands with
    | [reg, literal] =>
      match regOf reg with
      | some r =>
        match hexLiteral 0xFFFF literal with
        | some v => .ok (packImm16 opcode r (BitVec.ofNat 16 v))
        | none => .error .syntaxError
      | none => .error .unknownRegister
    | _ => .error .syntaxError
  else .error .syntaxError

/-- The operand rules of the opcode's format (R84). No mnemonic has an opcode of flag `0b10` (R67). -/
def assembleOperands (imm16Text : Bool) (opcode : Byte) (operands : List Text) : Result AsmError (List Byte) :=
  match formatOf opcode with
  | .regs => assembleRegs opcode operands
  | .imm12 => assembleImm12 opcode operands
  | .formatless => .error .syntaxError
  | .imm16 => assembleImm16 imm16Text opcode operands

/-- `encode_line`: the bytes a line appends, or the error for which it appends nothing (R81, R83, R84, R89). -/
def encodeLine (imm16Text : Bool) (line : Text) : Result AsmError (List Byte) :=
  match tokens line with
  | [] => .error .syntaxError
  | name :: operands =>
    match mnemonicOf name with
    | none => .error .unknownInstruction
    | some m => assembleOperands imm16Text (mnemonicOpcode m) operands

/-- `encode_lines` after `index` lines that appended `output`. -/
def encodeLinesFrom (imm16Text : Bool) (index : Nat) (output : List Byte) :
    List Text → List Byte × Result (Nat × AsmError) Nat
  | [] => (output, .ok index)
  | line :: rest =>
    match encodeLine imm16Text line with
    | .ok bytes => encodeLinesFrom imm16Text (index + 1) (output ++ bytes) rest
    | .error e => (output, .error (index, e))

/-- `encode_lines`: the output, and the number of lines or the first failing line's 0-based index with its
error (R90, D25). -/
def encodeLines (imm16Text : Bool) (lines : List Text) : List Byte × Result (Nat × AsmError) Nat :=
  encodeLinesFrom imm16Text 0 [] lines

/-! ## The listing (R92, not normative for the core) -/

/-- A hexadecimal digit in capitals (DESIGN CHOICE, log 13). -/
def hexChar (d : Nat) : Char :=
  if d < 10 then Char.ofNat ('0'.toNat + d) else Char.ofNat ('A'.toNat + (d - 10))

/-- The lowest `n` hexadecimal digits of a value, most significant first. -/
def hexText : Nat → Nat → Text
  | 0, _ => []
  | n + 1, v => hexText n (v / 16) ++ [hexChar (v % 16)]

/-- A byte as two digits. -/
def byteText (b : Byte) : Text := hexText 2 b.toNat

/-- The tokens an instruction is printed as: the assembler's form, and raw bytes for an unassigned opcode
(R92, D27). -/
def listingTokens : Instr → List Text
  | .hlt _ _ => [mnemonicName .hlt]
  | .nop _ _ => [mnemonicName .nop]
  | .xor src dst => [mnemonicName .xor, regName src, regName dst]
  | .add src dst => [mnemonicName .add, regName src, regName dst]
  | .beq a b base imm => [mnemonicName .beq, regName a, regName b, regName base, hexText 3 imm.toNat]
  | .ldl reg imm16 => [mnemonicName .ldl, regName reg, hexText 4 imm16.toNat]
  | .ldh reg imm16 => [mnemonicName .ldh, regName reg, hexText 4 imm16.toNat]
  | .wml reg imm16 => [mnemonicName .wml, regName reg, hexText 4 imm16.toNat]
  | .wmh reg imm16 => [mnemonicName .wmh, regName reg, hexText 4 imm16.toNat]
  | .wmb reg imm16 => [mnemonicName .wmb, regName reg, hexText 4 imm16.toNat]
  | .ldc reg imm16 => [mnemonicName .ldc, regName reg, hexText 4 imm16.toNat]
  | .unassigned0407 opcode byte1 => [opcode, byte1].map byteText
  | .unassigned080F opcode byte1 => [opcode, byte1].map byteText
  | .unassigned101F opcode byte1 => [opcode, byte1].map byteText
  | .unassigned203F opcode byte1 => [opcode, byte1].map byteText
  | .unassigned4141 opcode byte1 byte2 byte3 => [opcode, byte1, byte2, byte3].map byteText
  | .unassigned4243 opcode byte1 byte2 byte3 => [opcode, byte1, byte2, byte3].map byteText
  | .unassigned4447 opcode byte1 byte2 byte3 => [opcode, byte1, byte2, byte3].map byteText
  | .unassigned484F opcode byte1 byte2 byte3 => [opcode, byte1, byte2, byte3].map byteText
  | .unassigned505F opcode byte1 byte2 byte3 => [opcode, byte1, byte2, byte3].map byteText
  | .unassigned607F opcode byte1 byte2 byte3 => [opcode, byte1, byte2, byte3].map byteText
  | .unassigned80BF opcode byte1 => [opcode, byte1].map byteText
  | .unassignedC6C7 opcode byte1 byte2 byte3 => [opcode, byte1, byte2, byte3].map byteText
  | .unassignedC8CF opcode byte1 byte2 byte3 => [opcode, byte1, byte2, byte3].map byteText
  | .unassignedD0DF opcode byte1 byte2 byte3 => [opcode, byte1, byte2, byte3].map byteText
  | .unassignedE0FF opcode byte1 byte2 byte3 => [opcode, byte1, byte2, byte3].map byteText

/-- Tokens set apart by one space. -/
def joinTokens : List Text → Text
  | [] => []
  | [t] => t
  | t :: ts => t ++ ' ' :: joinTokens ts

/-- An instruction as one line of text. -/
def listing (i : Instr) : Text :=
  joinTokens (listingTokens i)

end Sys2Proof.Machine
end

