-- ==== Sys2Proof/Safety.lean ====
section
/-! DEFINITION. The terms claims are stated in: what a state of a run keeps in order, what an instruction
leaves alone, and which runs count as good ones. -/

namespace Sys2Proof

/-! ## Instructions -/

/-- The seven instructions the interpreter has a dispatch case for (R2, R105, R112). -/
def Instr.recognised : Instr → Bool
  | .hlt _ _ | .nop _ _ | .xor _ _ | .add _ _ | .beq _ _ _ _ | .ldl _ _ | .ldh _ _ => true
  | _ => false

/-- The register an instruction writes (R23). -/
def Instr.destination : Instr → Option Reg
  | .xor _ dst | .add _ dst => some dst
  | .ldl reg _ | .ldh reg _ => some reg
  | _ => none

/-- The registers an instruction reads (R23). -/
def Instr.sources : Instr → List Reg
  | .xor src dst | .add src dst => [src, dst]
  | .beq a b base _ => [a, b, base]
  | .ldl reg _ | .ldh reg _ => [reg]
  | _ => []

/-- The opcode byte at the pc is one the interpreter recognises: `0x00` to `0x03`, `0x40`, `0xC0`, `0xC1`
(R112). -/
def recognisedOpcode (opcode : Byte) : Bool :=
  opcode == 0x00 || opcode == 0x01 || opcode == 0x02 || opcode == 0x03 || opcode == 0x40
    || opcode == 0xC0 || opcode == 0xC1

end Sys2Proof

namespace Sys2Proof.Machine

/-! ## The order every step keeps -/

/-- The invariant of a run: Memory is in canonical form and inside `MEMLEN` (R37); a run that has stopped
has `END_PC` equal to the pc (R33) and no pending notification; the channel is closed exactly after the
stop (R35, R107). -/
structure State.Legal (s : State) : Prop where
  memCanonical : Memory.wf s.mem = true
  cellsInside : ∀ c ∈ s.mem, c.1 < s.memLen.val
  endRecorded : s.status ≠ .running → s.endPc = s.pc
  stoppedNotSuspended : s.status ≠ .running → s.suspended = false
  closedAtStop : ∀ c, s.channel = some c → (c.closed = true ↔ s.status ≠ .running)

/-! ## Frames -/

/-- Everything that no step changes: every byte of Memory (R47), `MEMLEN`, `INIT_PC`, `STRICT_FAULTS` and
whether a channel is attached (R7, R32, R35). -/
structure State.SameContext (s t : State) : Prop where
  bytes : ∀ a, t.readByte a = s.readByte a
  mem : t.mem = s.mem
  memLen : t.memLen = s.memLen
  initPc : t.initPc = s.initPc
  strictFaults : t.strictFaults = s.strictFaults
  hook : t.channel.isSome = s.channel.isSome

/-- What an executed instruction that does not stop leaves alone, and the notification it sends with the
hook attached (R108, R109). -/
structure State.WentOn (s t : State) : Prop where
  context : s.SameContext t
  endPc : t.endPc = s.endPc
  status : t.status = s.status
  notified : ∀ c, s.channel = some c → t.channel = some { c with pending := some s.pc }

/-- What a stop with a cause leaves and records: every register and byte as it was, `END_PC` the pc, the
channel closed with no notification sent (R107, R158). -/
structure State.Stopped (s t : State) (cause : Status) : Prop where
  context : s.SameContext t
  regs : ∀ r, t.getReg r = s.getReg r
  endPc : t.endPc = t.pc
  status : t.status = cause
  closed : ∀ c, s.channel = some c → t.channel = some { c with closed := true }

/-- What an opcode with no dispatch case does, of whatever it is: with `STRICT_FAULTS` off it is skipped by
its length, with it on the run stops on it; either way no register changes (R140, R142, R153). -/
def SkippedOrStopped (i : Instr) (opcode : Byte) (len : Nat) : Prop :=
  ∀ s : State, ∃ t, exec i s = .next t ∧ (∀ r, t.getReg r = s.getReg r) ∧
    (s.strictFaults = false → s.WentOn t ∧ t.pc = s.pc + BitVec.ofNat 32 len) ∧
    (s.strictFaults = true → s.Stopped t (.invalidOpcode opcode) ∧ t.pc = s.pc)

/-! ## The next instruction -/

/-- The core takes its next instruction at this state: running, its channel not being closed by the
observer, not suspended, inside the bounds. -/
def State.ready (s : State) : Bool :=
  s.status == .running && !s.aborted && !s.suspended && s.fetchInBounds

/-- The instruction the next step runs, if it runs one. -/
def State.nextInstr (s : State) : Option Instr :=
  if s.ready then
    match s.fetch with
    | .ok i => some i
    | .error _ => none
  else none

/-! ## Runs -/

/-- Every cell of Memory holds a value, as in a context whose caller has filled it (R178). -/
def State.FullyLoaded (s : State) : Prop :=
  ∀ a, a < s.memLen.val → ∃ b, s.mem.byteAt a = some b

/-- The observer never closes the channel (R167, R168). -/
def State.DutifulObserver (s : State) : Prop :=
  ∀ c, s.channel = some c → ∀ r ∈ c.replies, ∃ v, r = .acknowledge v

/-- The same run without a channel (R164). -/
def State.detach (s : State) : State :=
  { s with channel := none }

/-- A run that comes to `HLT` within `n` steps, the success path (R152). A stop by the bounds check is no
such run (U4). -/
def HaltsIn (n : Nat) (s t : State) : Prop :=
  Host.Core.run Sys2Proof.core n s = .next t ∧ t.status = .halted

/-- No reserved or unassigned opcode is executed in `n` steps (R143). -/
def OnlyRecognised : Nat → State → Prop
  | 0, _ => True
  | n + 1, s =>
    (∀ i, s.nextInstr = some i → i.recognised = true) ∧ ∀ t, step s = .next t → OnlyRecognised n t

end Sys2Proof.Machine
end

