-- ==== Sys2Proof/Certificates/Slice0/Obligations.lean ====
section
/-! DEFINITION. The statements for the provers. -/

open Sys2Proof Sys2Proof.Machine

/-- R93, for whole instructions: no bit of an encoding is dropped. -/
def Obligations.DecodeEncodeRoundTrip : Prop :=
  ∀ (i : Instr) (rest : List Byte), i.wellFormed = true → decode (encode i ++ rest) = .ok (i, rest)

/-- R93. -/
def Obligations.EntryPointsRoundTrip : Prop :=
  (∀ (o src dst : Nat) (rest : List Byte), o < 256 → src < 16 → dst < 16 →
    formatOf (BitVec.ofNat 8 o) = .regs →
    let w := windowOf (emitRegs o src dst ++ rest)
    (opcodeField w).toNat = o ∧ (srcField w).toNat = src ∧ (dstField w).toNat = dst) ∧
  (∀ (o a b dst offset : Nat) (rest : List Byte), o < 256 → a < 16 → b < 16 → dst < 16 → offset < 4096 →
    formatOf (BitVec.ofNat 8 o) = .imm12 →
    let w := windowOf (emitImm12 o a b dst offset ++ rest)
    (opcodeField w).toNat = o ∧ (srcField w).toNat = a ∧ (dstField w).toNat = b ∧
      (baseField w).toNat = dst ∧ (imm12Field w).toNat = offset) ∧
  (∀ (o reg value : Nat) (rest : List Byte), o < 256 → reg < 16 → value < 65536 →
    formatOf (BitVec.ofNat 8 o) = .imm16 →
    let w := windowOf (emitImm16 o reg value ++ rest)
    (opcodeField w).toNat = o ∧ (dstField w).toNat = reg ∧ (imm16Field w).toNat = value) ∧
  (∀ w : Word, formatOf (opcodeField w) = .regs →
    emitRegs (opcodeField w).toNat (srcField w).toNat (dstField w).toNat = [opcodeField w, byte1Field w]) ∧
  (∀ w : Word, formatOf (opcodeField w) = .imm12 →
    emitImm12 (opcodeField w).toNat (srcField w).toNat (dstField w).toNat (baseField w).toNat
      (imm12Field w).toNat = [opcodeField w, byte1Field w, byte2Field w, byte3Field w]) ∧
  (∀ w : Word, formatOf (opcodeField w) = .imm16 →
    emitImm16 (opcodeField w).toNat (dstField w).toNat (imm16Field w).toNat =
      [opcodeField w, byte1Field w &&& 0x0F, byte2Field w, byte3Field w])

/-- R76: the decoder is total. -/
def Obligations.DecoderTotal : Prop :=
  ∀ w : Word,
    (decodeWindow w).wellFormed = true ∧
    (∀ row, rowMatches (opcodeField w) row = true ↔ row = (decodeWindow w).row) ∧
    decode [opcodeField w, byte1Field w, byte2Field w, byte3Field w] =
      .ok (decodeWindow w,
        [opcodeField w, byte1Field w, byte2Field w, byte3Field w].drop (lengthOf (opcodeField w)))

/-- 95_test_vectors.md 2.1, words written out from the encoding tables. -/
def Obligations.KnownWordsDecode : Prop :=
  decode [0x00, 0x00] = .ok (.hlt 0 0, []) ∧
  decode [0x01, 0xFF] = .ok (.nop 15 15, []) ∧
  decode [0x02, 0x12] = .ok (.xor 1 2, []) ∧
  decode [0x03, 0xF0] = .ok (.add 15 0, []) ∧
  decode [0x40, 0x01, 0x28, 0x02] = .ok (.beq 0 1 2 0x802, []) ∧
  decode [0x40, 0xFE, 0xD7, 0xFF] = .ok (.beq 15 14 13 0x7FF, []) ∧
  decode [0xC0, 0xF3, 0xED, 0xFE] = .ok (.ldl 3 0xFEED, []) ∧
  decode [0xC1, 0x0F, 0x34, 0x12] = .ok (.ldh 15 0x1234, []) ∧
  decode [0xC2, 0x05, 0x34, 0x12] = .ok (.wml 5 0x1234, []) ∧
  decode [0x41, 0x00, 0x00, 0x00] = .ok (.unassigned4141 0x41 0 0 0, []) ∧
  decode [0xBF, 0x00] = .ok (.unassigned80BF 0xBF 0, [])

/-- R72 and R74: the opcode map. -/
def Obligations.OpcodeMapIsAPartition : Prop :=
  (∀ op : Byte,
    (classify op = .hlt ↔ op = 0x00) ∧ (classify op = .nop ↔ op = 0x01) ∧ (classify op = .xor ↔ op = 0x02) ∧
    (classify op = .add ↔ op = 0x03) ∧ (classify op = .beq ↔ op = 0x40) ∧ (classify op = .ldl ↔ op = 0xC0) ∧
    (classify op = .ldh ↔ op = 0xC1) ∧ (classify op = .wml ↔ op = 0xC2) ∧ (classify op = .wmh ↔ op = 0xC3) ∧
    (classify op = .wmb ↔ op = 0xC4) ∧ (classify op = .ldc ↔ op = 0xC5)) ∧
  (∀ op : Byte, classify op ∈ allRows.drop 11 ↔
    (0x04 ≤ op ∧ op ≤ 0x3F) ∨ (0x41 ≤ op ∧ op ≤ 0x7F) ∨ (0x80 ≤ op ∧ op ≤ 0xBF) ∨ 0xC6 ≤ op) ∧
  (∀ op : Byte, (allRows.filter (rowMatches op)).length = 1)

/-- R60, R68: the length is a function of the flag only. -/
def Obligations.LengthIsTheFlags : Prop :=
  ∀ (op : Byte) (rest : List Byte),
    let len := if op.toNat / 64 = 1 ∨ op.toNat / 64 = 3 then 4 else 2
    (∀ i left, decode (op :: rest) = .ok (i, left) → (op :: rest).length = left.length + len) ∧
    (len ≤ (op :: rest).length → ∃ i, decode (op :: rest) = .ok (i, (op :: rest).drop len))

/-- R75. -/
def Obligations.IgnoredFieldsHaveNoEffect : Prop :=
  (∀ (w w' : Word) (s : State), opcodeField w = opcodeField w' →
    (opcodeField w = 0x00 ∨ opcodeField w = 0x01 ∨ recognisedOpcode (opcodeField w) = false) →
    exec (decodeWindow w) s = exec (decodeWindow w') s) ∧
  (∀ w w' : Word, opcodeField w = opcodeField w' → formatOf (opcodeField w) = .imm16 →
    (opcodeField w = 0xC0 ∨ opcodeField w = 0xC1) → dstField w = dstField w' → imm16Field w = imm16Field w' →
    decodeWindow w = decodeWindow w') ∧
  (∀ w : Word, opcodeField w = 0x00 → decodeWindow w = .hlt (srcField w) (dstField w)) ∧
  (∀ w : Word, opcodeField w = 0x01 → decodeWindow w = .nop (srcField w) (dstField w)) ∧
  (∀ m : Mnemonic, encodeLine false (mnemonicName m) =
    if formatOf (mnemonicOpcode m) = .regs then .ok [mnemonicOpcode m, 0] else .error .syntaxError) ∧
  (∀ op reg value : Int, ∀ b ∈ (emitImm16 op reg value)[1]?, b.extractLsb' 4 4 = 0)

/-- R70. -/
def Obligations.SignAndMagnitudeOffset : Prop :=
  (∀ w : Word, (imm12Field w).toNat = 256 * (byte2Field w).toNat % 4096 + (byte3Field w).toNat) ∧
  ∀ f : BitVec 12,
    (f.toNat < 2048 → smag12 f = f.toNat) ∧
    (2048 ≤ f.toNat → smag12 f = -((f.toNat : Int) - 2048)) ∧
    -2047 ≤ smag12 f ∧ smag12 f ≤ 2047 ∧
    (smag12 f = 0 ↔ f = 0x000 ∨ f = 0x800) ∧
    (smag12 f = f.toInt ↔ f.toNat < 2048 ∨ f = 0xC00)

/-- R71. -/
def Obligations.OffsetsAreEncodedBySoftware : Prop :=
  (∀ o : Int, -2047 ≤ o → o ≤ 2047 →
    smag12 (offsetField o) = o ∧
    (0 ≤ o → ((offsetField o).toNat : Int) = o) ∧
    (o < 0 → offsetField o = 0x800 ||| BitVec.ofInt 12 (-o) ∧ ((offsetField o).toNat : Int) = 2048 + -o)) ∧
  (∀ m op a b dst : Int, 1 ≤ m → m ≤ 2047 →
    smag12 (imm12Field (windowOf (emitImm12 op a b dst (-m)))) = -(2048 - m))

/-- R10, R40, R42: byte order, decided in one place. -/
def Obligations.WindowIsReadLittleEndian : Prop :=
  ∀ (s : State) (v : Nat), s.memRead s.pc.toNat 4 = .ok v →
    ∃ b0 b1 b2 b3 : Byte,
      s.readByte s.pc.toNat = .ok b0 ∧ s.readByte (s.pc.toNat + 1) = .ok b1 ∧
      s.readByte (s.pc.toNat + 2) = .ok b2 ∧ s.readByte (s.pc.toNat + 3) = .ok b3 ∧
      v = b0.toNat + 256 * b1.toNat + 65536 * b2.toNat + 16777216 * b3.toNat ∧
      opcodeField (BitVec.ofNat 32 v) = b0 ∧ byte1Field (BitVec.ofNat 32 v) = b1 ∧
      byte2Field (BitVec.ofNat 32 v) = b2 ∧ byte3Field (BitVec.ofNat 32 v) = b3 ∧
      imm16Field (BitVec.ofNat 32 v) = b3 ++ b2 ∧
      windowOf [b0, b1, b2, b3] = BitVec.ofNat 32 v

/-- R78 to R80. -/
def Obligations.EntryPointsTruncate : Prop :=
  (∀ opcode src dst : Int,
    (emitRegs opcode src dst).map (fun b => (b.toNat : Int)) = [opcode % 256, 16 * (src % 16) + dst % 16]) ∧
  (∀ opcode dst value : Int,
    (emitImm16 opcode dst value).map (fun b => (b.toNat : Int)) =
      [opcode % 256, dst % 16, value % 256, value / 256 % 256]) ∧
  (∀ opcode a b dst offset : Int,
    (emitImm12 opcode a b dst offset).map (fun b => (b.toNat : Int)) =
      [opcode % 256, 16 * (a % 16) + b % 16, 16 * (dst % 16) + offset / 256 % 16, offset % 256])

/-- R77, R72, R21. The fourteen names between `ra` and `rp` and the exact match are the spec's own decisions D16 and D17. -/
def Obligations.NameTablesAreInverse : Prop :=
  (∀ (t : Text) (m : Mnemonic), mnemonicOf t = some m ↔ t = mnemonicName m) ∧
  (∀ (op : Byte) (m : Mnemonic), mnemonicOfOpcode op = some m ↔ op = mnemonicOpcode m) ∧
  (∀ (t : Text) (r : Reg), regOf t = some r ↔ t = regName r) ∧
  [Mnemonic.hlt, .nop, .xor, .add, .beq, .ldl, .ldh, .wml, .wmh, .wmb, .ldc].map mnemonicName =
    [['H', 'L', 'T'], ['N', 'O', 'P'], ['X', 'O', 'R'], ['A', 'D', 'D'], ['B', 'E', 'Q'], ['L', 'D', 'L'],
     ['L', 'D', 'H'], ['W', 'M', 'L'], ['W', 'M', 'H'], ['W', 'M', 'B'], ['L', 'D', 'C']] ∧
  allRegs = [0, 1, 2, 3, 4, 5, 6, 7, 8, 9, 10, 11, 12, 13, 14, 15] ∧
  allRegs.map regName =
    [['r', 'a'], ['r', 'b'], ['r', 'c'], ['r', 'd'], ['r', 'e'], ['r', 'f'], ['r', 'g'], ['r', 'h'],
     ['r', 'i'], ['r', 'j'], ['r', 'k'], ['r', 'l'], ['r', 'm'], ['r', 'n'], ['r', 'o'], ['r', 'p']]

/-- R85. -/
def Obligations.RegsTextForm : Prop :=
  ∀ (opt : Bool) (line : Text) (m : Mnemonic) (operands : List Text),
    tokens line = mnemonicName m :: operands → formatOf (mnemonicOpcode m) = .regs →
    (operands = [] → encodeLine opt line = .ok (emitRegs (mnemonicOpcode m).toNat 0 0)) ∧
    (∀ src dst : Reg, operands = [regName src, regName dst] →
      encodeLine opt line = .ok (emitRegs (mnemonicOpcode m).toNat src.toNat dst.toNat)) ∧
    (∀ x y, operands = [x, y] → (regOf x = none ∨ regOf y = none) →
      encodeLine opt line = .error .unknownRegister) ∧
    (operands.length ≠ 0 → operands.length ≠ 2 → encodeLine opt line = .error .syntaxError)

/-- R86, with the order of checks of R89. -/
def Obligations.Imm12TextForm : Prop :=
  ∀ (opt : Bool) (line : Text) (m : Mnemonic) (operands : List Text),
    tokens line = mnemonicName m :: operands → formatOf (mnemonicOpcode m) = .imm12 →
    (operands.length ≠ 4 → encodeLine opt line = .error .syntaxError) ∧
    (∀ (a b dst : Reg) (literal : Text), operands = [regName a, regName b, regName dst, literal] →
      (∀ v, hexLiteral 0xFFF literal = some v →
        encodeLine opt line = .ok (emitImm12 (mnemonicOpcode m).toNat a.toNat b.toNat dst.toNat v)) ∧
      (hexLiteral 0xFFF literal = none → encodeLine opt line = .error .syntaxError)) ∧
    (∀ x y z literal, operands = [x, y, z, literal] →
      (regOf x = none ∨ regOf y = none ∨ regOf z = none) → encodeLine opt line = .error .unknownRegister)

/-- R87, both values of `ASM_IMM16_TEXT`. -/
def Obligations.Imm16TextForm : Prop :=
  ∀ (line : Text) (m : Mnemonic) (operands : List Text),
    tokens line = mnemonicName m :: operands → formatOf (mnemonicOpcode m) = .imm16 →
    encodeLine false line = .error .syntaxError ∧
    (operands.length ≠ 2 → encodeLine true line = .error .syntaxError) ∧
    (∀ (r : Reg) (literal : Text), operands = [regName r, literal] →
      (∀ v, hexLiteral 0xFFFF literal = some v →
        encodeLine true line = .ok (emitImm16 (mnemonicOpcode m).toNat r.toNat v)) ∧
      (hexLiteral 0xFFFF literal = none → encodeLine true line = .error .syntaxError)) ∧
    (∀ x literal, operands = [x, literal] → regOf x = none → encodeLine true line = .error .unknownRegister)

/-- R84. -/
def Obligations.MnemonicIsCheckedFirst : Prop :=
  (∀ (opt : Bool) (line name : Text) (operands : List Text), tokens line = name :: operands →
    (∀ m, name ≠ mnemonicName m) → encodeLine opt line = .error .unknownInstruction) ∧
  (∀ (opt : Bool) (line line' : Text) (m m' : Mnemonic) (operands : List Text),
    tokens line = mnemonicName m :: operands → tokens line' = mnemonicName m' :: operands →
    formatFlag (mnemonicOpcode m) = formatFlag (mnemonicOpcode m') →
    (∀ e, encodeLine opt line = .error e ↔ encodeLine opt line' = .error e) ∧
    (∀ bytes, encodeLine opt line = .ok (mnemonicOpcode m :: bytes) ↔
      encodeLine opt line' = .ok (mnemonicOpcode m' :: bytes)))

/-- R88. -/
def Obligations.HexLiteralGrammar : Prop :=
  (∀ c : Char, (hexDigit c).isSome = true ↔
    c ∈ ['0', '1', '2', '3', '4', '5', '6', '7', '8', '9', 'a', 'b', 'c', 'd', 'e', 'f',
         'A', 'B', 'C', 'D', 'E', 'F']) ∧
  ['0', '1', '2', '3', '4', '5', '6', '7', '8', '9'].map hexDigit =
    [some 0, some 1, some 2, some 3, some 4, some 5, some 6, some 7, some 8, some 9] ∧
  ['a', 'b', 'c', 'd', 'e', 'f'].map hexDigit = [some 10, some 11, some 12, some 13, some 14, some 15] ∧
  ['A', 'B', 'C', 'D', 'E', 'F'].map hexDigit = [some 10, some 11, some 12, some 13, some 14, some 15] ∧
  (∀ (limit : Nat) (t : Text) (v : Nat), hexLiteral limit t = some v ↔
    t ≠ [] ∧ (∀ c ∈ t, (hexDigit c).isSome = true) ∧
    v = Nat.ofDigits 16 (t.reverse.map fun c => (hexDigit c).getD 0) ∧ v ≤ limit)

/-- R90. -/
def Obligations.LinesStopAtTheFirstFailure : Prop :=
  ∀ opt : Bool,
    (∀ (lines : List Text) (outs : List (List Byte)), lines.map (encodeLine opt) = outs.map .ok →
      encodeLines opt lines = (outs.flatten, .ok lines.length)) ∧
    (∀ (good : List Text) (bad : Text) (rest : List Text) (outs : List (List Byte)) (e : AsmError),
      good.map (encodeLine opt) = outs.map .ok → encodeLine opt bad = .error e →
      encodeLines opt (good ++ bad :: rest) = (outs.flatten, .error (good.length, e)))

/-- R92: the printed form mirrors the assembler. -/
def Obligations.ListingAssemblesBack : Prop :=
  (∀ (opt : Bool) (src dst : Reg),
    encodeLine opt (listing (.xor src dst)) = .ok (encode (.xor src dst)) ∧
    encodeLine opt (listing (.add src dst)) = .ok (encode (.add src dst)) ∧
    encodeLine opt (listing (.hlt src dst)) = .ok (encode (.hlt 0 0)) ∧
    encodeLine opt (listing (.nop src dst)) = .ok (encode (.nop 0 0))) ∧
  (∀ (opt : Bool) (a b base : Reg) (imm : BitVec 12),
    encodeLine opt (listing (.beq a b base imm)) = .ok (encode (.beq a b base imm))) ∧
  (∀ (reg : Reg) (imm16 : BitVec 16),
    encodeLine true (listing (.ldl reg imm16)) = .ok (encode (.ldl reg imm16)) ∧
    encodeLine true (listing (.ldh reg imm16)) = .ok (encode (.ldh reg imm16)) ∧
    encodeLine true (listing (.wml reg imm16)) = .ok (encode (.wml reg imm16)) ∧
    encodeLine true (listing (.wmh reg imm16)) = .ok (encode (.wmh reg imm16)) ∧
    encodeLine true (listing (.wmb reg imm16)) = .ok (encode (.wmb reg imm16)) ∧
    encodeLine true (listing (.ldc reg imm16)) = .ok (encode (.ldc reg imm16)))

/-- The per-instruction statements reach a run through this one. -/
def Obligations.StepRunsTheDecodedInstruction : Prop :=
  ∀ s : State, s.status = .running → s.aborted = false → s.suspended = false →
    s.pc.toNat + 4 ≤ s.memLen.val →
    (∀ (bytes : List Byte) (i : Instr), s.readBytes s.pc.toNat bytes.length = .ok bytes →
      decode bytes = .ok (i, []) → step s = exec i s) ∧
    (∀ bytes : List Byte, s.readBytes s.pc.toNat 4 = .ok bytes →
      step s = exec (decodeWindow (windowOf bytes)) s)

/-- The load that stands for the caller's (R178). -/
def Obligations.PlacedInstructionRuns : Prop :=
  ∀ (s : State) (nbits w : Nat), nbits ≤ 32 →
    (∃ i, decodeTableWord nbits w = some i ∧
      step (s.withFetchWord nbits w) = exec i (s.withFetchWord nbits w)) ∧
    (s.withFetchWord nbits w).regs = s.regs ∧ s.memLen ≤ (s.withFetchWord nbits w).memLen ∧
    (s.withFetchWord nbits w).initPc = s.initPc ∧ (s.withFetchWord nbits w).endPc = s.endPc ∧
    (s.withFetchWord nbits w).strictFaults = s.strictFaults

/-- R120. -/
def Obligations.HltStopsPastItself : Prop :=
  (∀ w : Word, opcodeField w = 0x00 → decodeWindow w = .hlt (srcField w) (dstField w)) ∧
  (∀ (src dst : Reg) (s : State), ∃ t, exec (.hlt src dst) s = .next t ∧
    t.pc = s.pc + 2 ∧ t.endPc = s.pc + 2 ∧ s.Stopped t .halted) ∧
  (∀ s : State, s.status = .running → s.aborted = false → s.suspended = false →
    s.memLen.val < s.pc.toNat + 4 →
    ∃ t, step s = .next t ∧ t.status = .fetchOutOfBounds ∧ t.endPc = s.pc) ∧
  (∀ opt, encodeLine opt (mnemonicName .hlt) = .ok [0x00, 0x00])

/-- R121. -/
def Obligations.NopOnlyAdvances : Prop :=
  (∀ w : Word, opcodeField w = 0x01 → decodeWindow w = .nop (srcField w) (dstField w)) ∧
  (∀ (src dst : Reg) (s : State), ∃ t, exec (.nop src dst) s = .next t ∧
    t.pc = s.pc + 2 ∧ (∀ r, t.getReg r = s.getReg r) ∧ s.WentOn t) ∧
  (∀ opt, encodeLine opt (mnemonicName .nop) = .ok [0x01, 0x00])

/-- R125. -/
def Obligations.XorWritesItsDestination : Prop :=
  (∀ w : Word, opcodeField w = 0x02 → decodeWindow w = .xor (srcField w) (dstField w)) ∧
  ∀ (src dst : Reg) (s : State), ∃ t, exec (.xor src dst) s = .next t ∧
    t.pc = s.pc + 2 ∧ s.WentOn t ∧
    t.getReg dst = s.getReg dst ^^^ s.getReg src ∧ (∀ r, r ≠ dst → t.getReg r = s.getReg r) ∧
    (src = dst → t.getReg dst = 0) ∧ (s.getReg src = 0 → t.getReg dst = s.getReg dst) ∧
    (src ≠ dst → ∃ u, exec (.xor src dst) t = .next u ∧ u.getReg dst = s.getReg dst)

/-- R126. -/
def Obligations.AddWrapsIntoItsDestination : Prop :=
  (∀ w : Word, opcodeField w = 0x03 → decodeWindow w = .add (srcField w) (dstField w)) ∧
  ∀ (src dst : Reg) (s : State), ∃ t, exec (.add src dst) s = .next t ∧
    t.pc = s.pc + 2 ∧ s.WentOn t ∧
    (t.getReg dst).toNat = ((s.getReg dst).toNat + (s.getReg src).toNat) % 2 ^ 32 ∧
    (∀ r, r ≠ dst → t.getReg r = s.getReg r) ∧
    (s.getReg src = 0 → t.getReg dst = s.getReg dst) ∧
    (src ≠ dst → ∃ u, exec (.add dst src) t = .next u ∧ u.getReg src = s.getReg src + t.getReg dst)

/-- R130, R131. -/
def Obligations.BeqBranchesOnEquality : Prop :=
  (∀ w : Word, opcodeField w = 0x40 →
    decodeWindow w = .beq (srcField w) (dstField w) (baseField w) (imm12Field w)) ∧
  ∀ (a b base : Reg) (imm : BitVec 12) (s : State), ∃ t, exec (.beq a b base imm) s = .next t ∧
    s.WentOn t ∧ (∀ r, t.getReg r = s.getReg r) ∧
    (s.getReg a = s.getReg b →
      (t.pc.toNat : Int) = (((s.getReg base).toNat : Int) + smag12 imm) % 2 ^ 32) ∧
    (s.getReg a ≠ s.getReg b → t.pc = s.pc + 4) ∧
    -2047 ≤ ((s.getReg base).toNat : Int) + smag12 imm ∧
    ((s.getReg base).toNat : Int) + smag12 imm ≤ 2 ^ 32 + 2046

/-- R135. -/
def Obligations.LdlReplacesTheLowHalf : Prop :=
  (∀ w : Word, opcodeField w = 0xC0 → decodeWindow w = .ldl (dstField w) (imm16Field w)) ∧
  ∀ (reg : Reg) (imm16 : BitVec 16) (s : State), ∃ t, exec (.ldl reg imm16) s = .next t ∧
    t.pc = s.pc + 4 ∧ s.WentOn t ∧
    t.getReg reg = (s.getReg reg &&& 0xFFFF0000) ||| imm16.setWidth 32 ∧
    (t.getReg reg).extractLsb' 0 16 = imm16 ∧
    (t.getReg reg).extractLsb' 16 16 = (s.getReg reg).extractLsb' 16 16 ∧
    (∀ r, r ≠ reg → t.getReg r = s.getReg r)

/-- R136. -/
def Obligations.LdhReplacesTheHighHalf : Prop :=
  (∀ w : Word, opcodeField w = 0xC1 → decodeWindow w = .ldh (dstField w) (imm16Field w)) ∧
  ∀ (reg : Reg) (imm16 : BitVec 16) (s : State), ∃ t, exec (.ldh reg imm16) s = .next t ∧
    t.pc = s.pc + 4 ∧ s.WentOn t ∧
    t.getReg reg = (imm16.setWidth 32 <<< 16) ||| (s.getReg reg &&& 0x0000FFFF) ∧
    (t.getReg reg).extractLsb' 16 16 = imm16 ∧
    (t.getReg reg).extractLsb' 0 16 = (s.getReg reg).extractLsb' 0 16 ∧
    (∀ r, r ≠ reg → t.getReg r = s.getReg r)

/-- R137. -/
def Obligations.HalfWordsCompose : Prop :=
  ∀ (r : Reg) (lo hi : BitVec 16) (s : State),
    (∃ t, exec (.ldl r lo) s = .next t ∧ ∀ t' : State, t'.getReg r = t.getReg r →
      ∃ u, exec (.ldh r hi) t' = .next u ∧ u.getReg r = hi ++ lo) ∧
    (∃ t, exec (.ldh r hi) s = .next t ∧ ∀ t' : State, t'.getReg r = t.getReg r →
      ∃ u, exec (.ldl r lo) t' = .next u ∧ u.getReg r = hi ++ lo)

/-- R140. -/
def Obligations.ReservedOpcodesHaveNoEffect : Prop :=
  (∀ w : Word, opcodeField w = 0xC2 → decodeWindow w = .wml (dstField w) (imm16Field w)) ∧
  (∀ w : Word, opcodeField w = 0xC3 → decodeWindow w = .wmh (dstField w) (imm16Field w)) ∧
  (∀ w : Word, opcodeField w = 0xC4 → decodeWindow w = .wmb (dstField w) (imm16Field w)) ∧
  (∀ w : Word, opcodeField w = 0xC5 → decodeWindow w = .ldc (dstField w) (imm16Field w)) ∧
  (∀ (reg : Reg) (imm16 : BitVec 16),
    SkippedOrStopped (.wml reg imm16) 0xC2 4 ∧ SkippedOrStopped (.wmh reg imm16) 0xC3 4 ∧
    SkippedOrStopped (.wmb reg imm16) 0xC4 4 ∧ SkippedOrStopped (.ldc reg imm16) 0xC5 4) ∧
  (∀ m ∈ [Mnemonic.wml, .wmh, .wmb, .ldc],
    mnemonicOf (mnemonicName m) = some m ∧ mnemonicOfOpcode (mnemonicOpcode m) = some m ∧
    (∀ dst value : Int, (emitImm16 (mnemonicOpcode m).toNat dst value).head? = some (mnemonicOpcode m)) ∧
    (∀ (line : Text) (operands : List Text), tokens line = mnemonicName m :: operands →
      encodeLine false line = .error .syntaxError))

/-- R142. -/
def Obligations.UnassignedOpcodesAreSkipped : Prop :=
  (∀ op b1 b2 b3 : Byte,
    (inBlock 0x04 0x07 op = true → SkippedOrStopped (.unassigned0407 op b1) op 2) ∧
    (inBlock 0x08 0x0F op = true → SkippedOrStopped (.unassigned080F op b1) op 2) ∧
    (inBlock 0x10 0x1F op = true → SkippedOrStopped (.unassigned101F op b1) op 2) ∧
    (inBlock 0x20 0x3F op = true → SkippedOrStopped (.unassigned203F op b1) op 2) ∧
    (inBlock 0x41 0x41 op = true → SkippedOrStopped (.unassigned4141 op b1 b2 b3) op 4) ∧
    (inBlock 0x42 0x43 op = true → SkippedOrStopped (.unassigned4243 op b1 b2 b3) op 4) ∧
    (inBlock 0x44 0x47 op = true → SkippedOrStopped (.unassigned4447 op b1 b2 b3) op 4) ∧
    (inBlock 0x48 0x4F op = true → SkippedOrStopped (.unassigned484F op b1 b2 b3) op 4) ∧
    (inBlock 0x50 0x5F op = true → SkippedOrStopped (.unassigned505F op b1 b2 b3) op 4) ∧
    (inBlock 0x60 0x7F op = true → SkippedOrStopped (.unassigned607F op b1 b2 b3) op 4) ∧
    (inBlock 0x80 0xBF op = true → SkippedOrStopped (.unassigned80BF op b1) op 2) ∧
    (inBlock 0xC6 0xC7 op = true → SkippedOrStopped (.unassignedC6C7 op b1 b2 b3) op 4) ∧
    (inBlock 0xC8 0xCF op = true → SkippedOrStopped (.unassignedC8CF op b1 b2 b3) op 4) ∧
    (inBlock 0xD0 0xDF op = true → SkippedOrStopped (.unassignedD0DF op b1 b2 b3) op 4) ∧
    (inBlock 0xE0 0xFF op = true → SkippedOrStopped (.unassignedE0FF op b1 b2 b3) op 4)) ∧
  (∀ w : Word, (decodeWindow w).row ∈ allRows.drop 11 ↔
    (0x04 ≤ opcodeField w ∧ opcodeField w ≤ 0x3F) ∨ (0x41 ≤ opcodeField w ∧ opcodeField w ≤ 0x7F) ∨
    (0x80 ≤ opcodeField w ∧ opcodeField w ≤ 0xBF) ∨ 0xC6 ≤ opcodeField w)

/-- R101, for every run that R168 gives a meaning (log 7). -/
def Obligations.BoundsCheckStops : Prop :=
  ∀ s : State, s.status = .running → s.aborted = false → s.suspended = false →
    (s.memLen.val < s.pc.toNat + 4 →
      ∃ t, step s = .next t ∧ t.pc = s.pc ∧ s.Stopped t .fetchOutOfBounds) ∧
    (s.pc.toNat + 4 ≤ s.memLen.val → ∀ t, step s = .next t → t.status ≠ .fetchOutOfBounds) ∧
    (s.memLen.val < 4 → ∃ t, step s = .next t ∧ t.status = .fetchOutOfBounds)

/-- R150, R157. -/
def Obligations.StopCauseAndPriority : Prop :=
  ∀ s t : State, s.status = .running → s.suspended = false → step s = .next t →
    (statusCode t.status = 2 ↔ s.memLen.val < s.pc.toNat + 4) ∧
    (statusCode t.status = 1 ↔ s.pc.toNat + 4 ≤ s.memLen.val ∧ s.readByte s.pc.toNat = .ok 0x00) ∧
    (statusCode t.status = 3 ↔ s.pc.toNat + 4 ≤ s.memLen.val ∧ s.strictFaults = true ∧
      ∃ op, s.readByte s.pc.toNat = .ok op ∧ recognisedOpcode op = false) ∧
    (∀ op, t.status = .invalidOpcode op → s.readByte s.pc.toNat = .ok op) ∧
    (statusCode t.status = 2 → t.endPc = s.pc) ∧ (statusCode t.status = 1 → t.endPc = s.pc + 2) ∧
    (statusCode t.status = 3 → t.endPc = s.pc) ∧ (statusCode t.status = 0 ↔ t.status = .running)

/-- R112. -/
def Obligations.RunEndsExactlyWhen : Prop :=
  (∀ s t : State, s.status = .running → step s = .next t →
    (t.status ≠ .running ↔ s.suspended = false ∧
      (s.memLen.val < s.pc.toNat + 4 ∨ ∃ op, s.readByte s.pc.toNat = .ok op ∧
        (op = 0x00 ∨ (s.strictFaults = true ∧ recognisedOpcode op = false))))) ∧
  (∀ (n : Nat) (s t : State), Host.Core.run Sys2Proof.core n s = .next t → t.status = .running →
    ∀ k, k < n → ∃ u, Host.Core.run Sys2Proof.core k s = .next u ∧ u.status = .running ∧
      ¬ (u.suspended = false ∧
        (u.memLen.val < u.pc.toNat + 4 ∨ ∃ op, u.readByte u.pc.toNat = .ok op ∧
          (op = 0x00 ∨ (u.strictFaults = true ∧ recognisedOpcode op = false)))))

/-- R158. -/
def Obligations.StopsArePrecise : Prop :=
  ∀ s t : State, s.status = .running → step s = .next t → t.status ≠ .running →
    s.Stopped t t.status ∧ t.pc = (if t.status = .halted then s.pc + 2 else s.pc)

/-- R107, R159: the stopped state is terminal for the run. That a step of it answers the same state, and not a fault, is how the model says that the core is idle (log 15). -/
def Obligations.StoppedCoreStaysStopped : Prop :=
  ∀ (n : Nat) (s : State), s.status ≠ .running → Host.Core.run Sys2Proof.core n s = .next s

/-- R33, R34. -/
def Obligations.EndPcIsWrittenAtTheStopOnly : Prop :=
  ∀ s t : State, step s = .next t → (t.endPc ≠ s.endPc ∨ t.status ≠ s.status) →
    s.status = .running ∧ t.status ≠ .running ∧ t.endPc = t.pc

/-- R47: Memory is constant during a run. R7: the launch inputs do not change during the run. -/
def Obligations.NothingWritesMemory : Prop :=
  ∀ (n : Nat) (s t : State), Host.Core.run Sys2Proof.core n s = .next t → s.SameContext t

/-- R23. -/
def Obligations.OnlyDestinationsAreWritten : Prop :=
  (∀ (s t : State) (r : Reg), step s = .next t → t.getReg r ≠ s.getReg r →
    ∃ i, s.nextInstr = some i ∧ i.destination = some r) ∧
  (∀ src dst, (Instr.xor src dst).destination = some dst ∧ (Instr.add src dst).destination = some dst) ∧
  (∀ reg imm16, (Instr.ldl reg imm16).destination = some reg ∧ (Instr.ldh reg imm16).destination = some reg) ∧
  (∀ i : Instr, i.row ≠ .xor → i.row ≠ .add → i.row ≠ .ldl → i.row ≠ .ldh → i.destination = none) ∧
  (∀ (i : Instr) (s : State) (regs : Vector Word 16) (t u : State),
    (∀ r ∈ i.sources, ({ s with regs := regs } : State).getReg r = s.getReg r) →
    exec i s = .next t → exec i { s with regs := regs } = .next u →
    u.pc = t.pc ∧ ∀ d, i.destination = some d → u.getReg d = t.getReg d)

/-- R26, R133: BEQ is the only instruction that writes the pc other than by the length advance. -/
def Obligations.OnlyBeqLeavesTheSequence : Prop :=
  ∀ s t : State, step s = .next t →
    (s.nextInstr = none → t.pc = s.pc) ∧
    (∀ i, s.nextInstr = some i → t.status = .running →
      (∃ op, s.readByte s.pc.toNat = .ok op ∧ t.pc = s.pc + BitVec.ofNat 32 (lengthOf op)) ∨
      (∃ a b base imm, i = .beq a b base imm ∧ s.getReg a = s.getReg b ∧
        t.pc = branchTarget (s.getReg base) imm)) ∧
    (t.status = .halted → s.status = .running → t.pc = s.pc + 2)

/-- R27. -/
def Obligations.CursorWrapsOnlyAtTheTop : Prop :=
  ∀ s : State, s.fetchInBounds = true →
    (s.pc + 2).toNat = s.pc.toNat + 2 ∧
    ((s.pc + 4).toNat = s.pc.toNat + 4 ∨
      (s.memLen.val = 2 ^ 32 ∧ s.pc = 0xFFFFFFFC ∧ s.pc + 4 = 0))

/-- R28: the alignment invariant is software's to keep, and even targets keep it. -/
def Obligations.EvenPcStaysEven : Prop :=
  ∀ s t : State, s.pc.toNat % 2 = 0 → step s = .next t →
    (∀ a b base imm, s.nextInstr = some (.beq a b base imm) → s.getReg a = s.getReg b →
      (branchTarget (s.getReg base) imm).toNat % 2 = 0) →
    t.pc.toNat % 2 = 0

/-- R44. That a byte without a value faults is the model's choice (log 2). -/
def Obligations.FetchNeverLeavesMemory : Prop :=
  (∀ (s : State) (f : Fault), step s = .fault f → ∃ a, f = .unwrittenByte a ∧
    s.pc.toNat ≤ a ∧ a < s.pc.toNat + 4 ∧ a < s.memLen.val ∧ s.mem.byteAt a = none) ∧
  (∀ (s : State) (a : Nat), step s ≠ .fault (.addressOutsideMemory a)) ∧
  (∀ (s : State) (i : Instr), s.nextInstr = some i → s.pc.toNat + 4 ≤ s.memLen.val) ∧
  (∀ s : State, s.status = .running → s.aborted = false → s.suspended = false →
    s.memLen.val < s.pc.toNat + 4 →
    ∃ t, step s = .next t ∧ t.status ≠ .running)

/-- The invariant of a run. -/
def Obligations.LegalStatesStayLegal : Prop :=
  (∀ s t : State, s.Legal → step s = .next t → t.Legal) ∧
  (∀ (n : Nat) (s t : State), s.Legal → Host.Core.run Sys2Proof.core n s = .next t → t.Legal)

/-- R175, R39. That a start keeps `END_PC` is the model's choice (log 5, DESIGN CHOICE): R39 leaves it unspecified until the stop. -/
def Obligations.StartedRunIsLegal : Prop :=
  (∀ s : State, Memory.wf s.mem = true → (∀ c ∈ s.mem, c.1 < s.memLen.val) →
    s.startRun.pc = s.initPc ∧ s.startRun.status = .running ∧ s.startRun.suspended = false ∧
    (∀ r, s.startRun.getReg r = s.getReg r) ∧ s.SameContext s.startRun ∧ s.startRun.endPc = s.endPc ∧
    s.startRun.Legal) ∧
  State.reset.Legal

/-- R39, R175: the values the spec gives; and that starting a run at reset changes nothing, which includes that a start keeps `END_PC`, the model's choice (log 5, DESIGN CHOICE). -/
def Obligations.ResetIsTheStartOfARun : Prop :=
  State.reset.pc = State.reset.initPc ∧ State.reset.status = .running ∧ State.reset.suspended = false ∧
  State.reset.strictFaults = false ∧ State.reset.startRun = State.reset

/-- R109. -/
def Obligations.ExecutedStepsNotify : Prop :=
  (∀ (s t : State) (c : Channel), s.channel = some c → s.status = .running → s.suspended = false →
    step s = .next t →
    (t.status = .running → t.channel = some { c with pending := some s.pc }) ∧
    (t.status ≠ .running → t.channel = some { c with closed := true })) ∧
  (∀ (s t : State) (c : Channel), s.channel = some c → s.status ≠ .running ∨ s.suspended = true →
    step s = .next t → ∃ d, t.channel = some d ∧ (d.pending = c.pending ∨ d.pending = none) ∧
      d.closed = c.closed) ∧
  (∀ (n : Nat) (s t : State), s.channel = none → Host.Core.run Sys2Proof.core n s = .next t →
    t.channel = none ∧ t.suspended = false)

/-- R108, R35, R168. -/
def Obligations.SuspendedCoreWaits : Prop :=
  ∀ (s : State) (c : Channel), s.status = .running → s.suspended = true → s.channel = some c →
    (c.replies = [] → ∀ n, Host.Core.run Sys2Proof.core n s = .next s) ∧
    (∀ v rest, c.replies = .acknowledge v :: rest →
      step s = .next { s with channel := some { pending := none, closed := c.closed, replies := rest } }) ∧
    (∀ rest, c.replies = .abortWhenNotified :: rest ∨ c.replies = .abort :: rest →
      step s = .refused .channelAborted)

/-- R164: the registers, Memory, `END_PC` and `STATUS` are the same with and without the hook. -/
def Obligations.HookChangesNoResult : Prop :=
  (∀ (n : Nat) (s t : State), Host.Core.run Sys2Proof.core n s = .next t →
    ∃ m, m ≤ n ∧ Host.Core.run Sys2Proof.core m s.detach = .next t.detach) ∧
  (∀ (m : Nat) (s u : State),
    (∀ c, s.channel = some c → (∀ r ∈ c.replies, ∃ v, r = .acknowledge v) ∧ m + 1 ≤ c.replies.length) →
    Host.Core.run Sys2Proof.core m s.detach = .next u →
    ∃ n t, Host.Core.run Sys2Proof.core n s = .next t ∧ t.detach = u)

/-- R110, R154: no instruction traps or fails. -/
def Obligations.LoadedRunNeverSticks : Prop :=
  ∀ (n : Nat) (s : State), s.FullyLoaded → s.DutifulObserver →
    ∃ t, Host.Core.run Sys2Proof.core n s = .next t ∧ t.FullyLoaded ∧ t.DutifulObserver

/-- R143, R153: the mode matters only where an opcode has no dispatch case. -/
def Obligations.CleanRunsIgnoreTheFaultMode : Prop :=
  ∀ (n : Nat) (s t : State) (mode : Bool), OnlyRecognised n s →
    Host.Core.run Sys2Proof.core n s = .next t →
    Host.Core.run Sys2Proof.core n ({ s with strictFaults := mode } : State) =
      .next ({ t with strictFaults := mode } : State)

/-- R83. -/
def Obligations.TokensAreSplitAtSpaceTabComma : Prop :=
  (∀ seps : Text, (∀ c ∈ seps, c = ' ' ∨ c = '\t' ∨ c = ',') →
    tokens seps = [] ∧ ∀ opt, encodeLine opt seps = .error .syntaxError) ∧
  (∀ seps word rest : Text, (∀ c ∈ seps, c = ' ' ∨ c = '\t' ∨ c = ',') →
    word ≠ [] → (∀ c ∈ word, c ≠ ' ' ∧ c ≠ '\t' ∧ c ≠ ',') →
    (∀ c, rest.head? = some c → c = ' ' ∨ c = '\t' ∨ c = ',') →
    tokens (seps ++ (word ++ rest)) = word :: tokens rest) ∧
  (∀ line : Text, ∀ t ∈ tokens line, t ≠ [] ∧ ∀ c ∈ t, c ≠ ' ' ∧ c ≠ '\t' ∧ c ≠ ',') ∧
  (∀ (opt : Bool) (line : Text) (m : Mnemonic) (operands : List Text),
    tokens line = mnemonicName m :: operands →
    encodeLine opt line = assembleOperands opt (mnemonicOpcode m) operands)

/-- R168, U1. That the undefined behaviour is a refusal is the model's choice (log 7). -/
def Obligations.ObserverClosingTheChannelIsRefused : Prop :=
  ∀ (s : State) (r : Refusal), step s = .refused r ↔
    s.status = .running ∧ r = .channelAborted ∧ ∃ c rest, s.channel = some c ∧
      (c.replies = .abort :: rest ∨ (c.pending ≠ none ∧ c.replies = .abortWhenNotified :: rest))
end

