-- ==== Sys2Proof/Laws/Assembler.lean ====
section
/-! SUPPORT. The name tables, tokens and hexadecimal literals of the assembler. -/

namespace Sys2Proof.Machine

/-- Looking up a register's own name gives the register. -/
@[simp] theorem regOf_regName : ∀ r : Reg, regOf (regName r) = some r := by
  decide

/-- Looking up a mnemonic's own name gives the mnemonic. -/
@[simp] theorem mnemonicOf_mnemonicName (m : Mnemonic) : mnemonicOf (mnemonicName m) = some m := by
  cases m <;> decide

/-- A name that is found is the found register's own. -/
theorem regName_of_regOf {name : Text} {r : Reg} (h : regOf name = some r) : regName r = name := by
  have := List.find?_some h
  simpa using this

/-- A name that is found is the found mnemonic's own. -/
theorem mnemonicName_of_mnemonicOf {name : Text} {m : Mnemonic} (h : mnemonicOf name = some m) :
    mnemonicName m = name := by
  have := List.find?_some h
  simpa using this

/-- The tokens after a token under way that a separator or the end of the line cuts off. -/
theorem tokensFrom_append (word t rest : Text) (ht : ∀ c ∈ t, isSeparator c = false) :
    tokensFrom word (t ++ rest) = tokensFrom (word ++ t) rest := by
  induction t generalizing word with
  | nil => simp
  | cons c cs ih =>
    have hc : isSeparator c = false := ht c (by simp)
    simp only [List.cons_append, tokensFrom, hc]
    rw [if_neg (by simp), ih _ fun d hd => ht d (by simp [hd])]
    simp

/-- The tokens of a line made of non-empty, separator-free tokens are those tokens. -/
theorem tokens_joinTokens (ts : List Text) (h : ∀ t ∈ ts, t ≠ [] ∧ ∀ c ∈ t, isSeparator c = false) :
    tokens (joinTokens ts) = ts := by
  induction ts with
  | nil => rfl
  | cons t ts ih =>
    obtain ⟨hne, hsep⟩ := h t (by simp)
    have ih := ih fun u hu => h u (by simp [hu])
    cases ts with
    | nil =>
      have := tokensFrom_append [] t [] hsep
      simp only [List.append_nil, List.nil_append] at this
      simp [joinTokens, tokens, this, tokensFrom, hne]
    | cons u us =>
      have := tokensFrom_append [] t (' ' :: joinTokens (u :: us)) hsep
      rw [List.nil_append] at this
      rw [joinTokens, tokens, this]
      · simp only [tokensFrom]
        rw [if_pos (by decide), if_neg hne]
        simp only [tokens] at ih
        rw [ih]
      · simp

/-- Reading digits after digits. -/
theorem hexFrom_append (v : Nat) (xs ys : Text) :
    hexFrom v (xs ++ ys) = (hexFrom v xs).bind fun w => hexFrom w ys := by
  induction xs generalizing v with
  | nil => simp [hexFrom]
  | cons c cs ih =>
    simp only [List.cons_append, hexFrom]
    cases hexDigit c with
    | none => rfl
    | some d => simp [ih]

/-- A printed digit reads back as its value. -/
theorem hexDigit_hexChar : ∀ d : Fin 16, hexDigit (hexChar d.val) = some d.val := by
  decide

/-- Printed digits hold no separator. -/
theorem isSeparator_hexText (n v : Nat) : ∀ c ∈ hexText n v, isSeparator c = false := by
  induction n generalizing v with
  | zero => simp [hexText]
  | succ n ih =>
    intro c hc
    simp only [hexText, List.mem_append, List.mem_singleton] at hc
    rcases hc with hc | rfl
    · exact ih _ c hc
    · have : ∀ d : Fin 16, isSeparator (hexChar d.val) = false := by decide
      exact this ⟨v % 16, Nat.mod_lt _ (by omega)⟩

/-- Printed digits read back as the value's lowest digits. -/
theorem hexFrom_hexText (n v : Nat) : hexFrom 0 (hexText n v) = some (v % 16 ^ n) := by
  induction n generalizing v with
  | zero => simp [hexText, hexFrom, Nat.mod_one]
  | succ n ih =>
    have hd := hexDigit_hexChar ⟨v % 16, Nat.mod_lt _ (by omega)⟩
    simp only at hd
    simp only [hexText, hexFrom_append, ih, Option.bind_some, hexFrom, hd]
    rw [pow_succ, Nat.mul_comm (16 ^ n) 16, Nat.mod_mul, Nat.add_comm]

end Sys2Proof.Machine
end

