-- ==== Sys2Proof/Laws/Decode.lean ====
section
/-! SUPPORT. The opcode rows, the window's fields, and what decoding a list of bytes gives. -/

namespace Sys2Proof

/-- The rows partition the opcode bytes: an opcode byte's row is the one row that matches it. -/
theorem classify_iff_rowMatches : ∀ (opcode : Byte) (row : Row),
    classify opcode = row ↔ rowMatches opcode row = true := by
  intro opcode row
  cases row <;> revert opcode <;> decide

/-- The length is 2 or 4. -/
theorem lengthOf_cases : ∀ opcode : Byte, lengthOf opcode = 2 ∨ lengthOf opcode = 4 := by
  decide

theorem lengthOf_pos (opcode : Byte) : 0 < lengthOf opcode := by
  rcases lengthOf_cases opcode with h | h <;> omega

/-- The window of four bytes, byte 0 in the lowest place. -/
theorem windowOf_four (b0 b1 b2 b3 : Byte) : windowOf [b0, b1, b2, b3] = b3 ++ b2 ++ b1 ++ b0 := by
  simp only [windowOf]
  ext i hi
  simp
  grind

/-- The window of two bytes: bits 31:16 are 0. -/
theorem windowOf_two (b0 b1 : Byte) : windowOf [b0, b1] = (0 : BitVec 16) ++ b1 ++ b0 := by
  simp only [windowOf]
  ext i hi
  simp
  grind

@[simp] theorem opcodeField_windowOf (b0 : Byte) (bs : List Byte) : opcodeField (windowOf (b0 :: bs)) = b0 := by
  simp only [windowOf, opcodeField]
  ext i hi
  simp
  grind

@[simp] theorem byte1Field_windowOf (b0 b1 : Byte) (bs : List Byte) :
    byte1Field (windowOf (b0 :: b1 :: bs)) = b1 := by
  simp only [windowOf, byte1Field]
  ext i hi
  simp
  grind

@[simp] theorem byte2Field_windowOf (b0 b1 b2 : Byte) (bs : List Byte) :
    byte2Field (windowOf (b0 :: b1 :: b2 :: bs)) = b2 := by
  simp only [windowOf, byte2Field]
  ext i hi
  simp
  grind

@[simp] theorem byte3Field_windowOf (b0 b1 b2 b3 : Byte) (bs : List Byte) :
    byte3Field (windowOf (b0 :: b1 :: b2 :: b3 :: bs)) = b3 := by
  simp only [windowOf, byte3Field]
  ext i hi
  simp
  grind

/-- The high nibble of byte 1. -/
theorem srcField_eq (w : Word) : srcField w = (byte1Field w).extractLsb' 4 4 := by
  simp only [srcField, byte1Field]
  ext i hi
  simp
  grind

/-- The low nibble of byte 1. -/
theorem dstField_eq (w : Word) : dstField w = (byte1Field w).extractLsb' 0 4 := by
  simp only [dstField, byte1Field]
  ext i hi
  simp
  grind

/-- The high nibble of byte 2. -/
theorem baseField_eq (w : Word) : baseField w = (byte2Field w).extractLsb' 4 4 := by
  simp only [baseField, byte2Field]
  ext i hi
  simp
  grind

/-- The low nibble of byte 2, then byte 3. -/
theorem imm12Field_eq (w : Word) : imm12Field w = (byte2Field w).extractLsb' 0 4 ++ byte3Field w := by
  simp only [imm12Field, byte2Field, byte3Field]
  ext i hi
  simp
  grind

/-- Byte 3, then byte 2: little-endian. -/
theorem imm16Field_eq (w : Word) : imm16Field w = byte3Field w ++ byte2Field w := by
  simp only [imm16Field, byte2Field, byte3Field]
  ext i hi
  simp
  grind

/-- A window is its four bytes. -/
theorem windowOf_fields (w : Word) :
    windowOf [opcodeField w, byte1Field w, byte2Field w, byte3Field w] = w := by
  rw [windowOf_four]
  simp only [opcodeField, byte1Field, byte2Field, byte3Field]
  ext i hi
  simp
  grind

@[simp] theorem high_nibble_append (x y : BitVec 4) : (x ++ y : Byte).extractLsb' 4 4 = x := by
  ext i hi
  simp
  grind

@[simp] theorem low_nibble_append (x y : BitVec 4) : (x ++ y : Byte).extractLsb' 0 4 = y := by
  ext i hi
  simp
  grind

@[simp] theorem imm12_halves (imm : BitVec 12) : imm.extractLsb' 8 4 ++ imm.extractLsb' 0 8 = imm := by
  ext i hi
  simp
  grind

@[simp] theorem imm16_halves (imm : BitVec 16) : imm.extractLsb' 8 8 ++ imm.extractLsb' 0 8 = imm := by
  ext i hi
  simp
  grind

/-- What decoding gives when the bytes are exactly as many as the opcode byte asks for, and more follow. -/
theorem decode_append (opcode : Byte) (tail rest : List Byte) (h : tail.length = lengthOf opcode - 1) :
    decode (opcode :: tail ++ rest) = .ok (decodeWindow (windowOf (opcode :: tail)), rest) := by
  simp [decode, h.symm]

end Sys2Proof
end

