-- ==== Sys2Proof/Laws/Memory.lean ====
section
/-! SUPPORT. Memory: what a read gives after a write, and that every operation keeps the canonical form. -/

namespace Sys2Proof.Machine

/-- Every cell lies above an address. -/
def Memory.Above (a : Nat) (m : Memory) : Prop :=
  ∀ c ∈ m, a < c.1

theorem Memory.wf_cons_iff (c : Host.Cell) (m : Memory) :
    Memory.wf (c :: m) = true ↔ Memory.Above c.1 m ∧ Memory.wf m = true := by
  induction m generalizing c with
  | nil => simp [Memory.wf, Memory.Above]
  | cons d m ih =>
    obtain ⟨a, x⟩ := c
    obtain ⟨b, y⟩ := d
    simp only [Memory.wf, Bool.and_eq_true, decide_eq_true_eq]
    constructor
    · rintro ⟨hab, h⟩
      refine ⟨?_, h⟩
      intro c hc
      rcases List.mem_cons.1 hc with rfl | hc
      · exact hab
      · exact lt_trans hab (((ih (b, y)).1 h).1 c hc)
    · rintro ⟨h1, h2⟩
      exact ⟨h1 (b, y) (by simp), h2⟩

theorem Memory.byteAt_of_above {a : Nat} {m : Memory} (h : Memory.Above a m) : m.byteAt a = none := by
  induction m with
  | nil => rfl
  | cons c m ih =>
    obtain ⟨k, b⟩ := c
    have hk : a < k := h (k, b) (by simp)
    have : ¬ k = a := by omega
    simp only [Memory.byteAt, this, if_false]
    exact ih fun c hc => h c (by simp [hc])

/-- A read after a write gives the value written, and every other address reads as before. -/
theorem Memory.byteAt_write (m : Memory) (a a' : Nat) (v : Byte) :
    (m.write a v).byteAt a' = if a' = a then some v else m.byteAt a' := by
  induction m with
  | nil => simp [Memory.write, Memory.byteAt, eq_comm]
  | cons c m ih =>
    obtain ⟨k, b⟩ := c
    simp only [Memory.write]
    split
    · simp [Memory.byteAt, eq_comm]
    · split
      · next hak =>
        subst hak
        simp only [Memory.byteAt]
        split
        · next h => simp [h]
        · next h => rw [if_neg (Ne.symm h)]
      · next hlt hne =>
        simp only [Memory.byteAt, ih]
        split
        · next h => subst h; rw [if_neg (Ne.symm hne)]
        · rfl

theorem Memory.mem_write {m : Memory} {a : Nat} {v : Byte} {c : Host.Cell} (h : c ∈ m.write a v) :
    c = (a, v) ∨ c ∈ m := by
  induction m with
  | nil => simpa [Memory.write] using h
  | cons d m ih =>
    obtain ⟨k, b⟩ := d
    simp only [Memory.write] at h
    split at h
    · simpa using h
    · split at h
      · rcases List.mem_cons.1 h with h | h
        · exact .inl h
        · exact .inr (by simp [h])
      · rcases List.mem_cons.1 h with h | h
        · exact .inr (by simp [h])
        · rcases ih h with h | h
          · exact .inl h
          · exact .inr (by simp [h])

/-- Writing keeps the canonical form. -/
theorem Memory.wf_write {m : Memory} (h : m.wf = true) (a : Nat) (v : Byte) : (m.write a v).wf = true := by
  induction m with
  | nil => rfl
  | cons c m ih =>
    obtain ⟨k, b⟩ := c
    obtain ⟨h1, h2⟩ := (Memory.wf_cons_iff _ _).1 h
    simp only [Memory.write]
    split
    · next hlt =>
      refine (Memory.wf_cons_iff _ _).2 ⟨?_, h⟩
      intro c hc
      rcases List.mem_cons.1 hc with rfl | hc
      · exact hlt
      · exact lt_trans hlt (h1 c hc)
    · split
      · next heq =>
        subst heq
        exact (Memory.wf_cons_iff _ _).2 ⟨h1, h2⟩
      · next hlt hne =>
        refine (Memory.wf_cons_iff _ _).2 ⟨?_, ih h2⟩
        intro c hc
        rcases Memory.mem_write hc with rfl | hc
        · show k < a
          omega
        · exact h1 c hc

/-- Writing consecutive cells keeps the canonical form. -/
theorem Memory.wf_writeAll {m : Memory} (h : m.wf = true) (a : Nat) (bs : List Byte) :
    (m.writeAll a bs).wf = true := by
  induction bs generalizing m a with
  | nil => exact h
  | cons b bs ih => exact ih (Memory.wf_write h a b) (a + 1)

/-- Consecutive cells written read as what was written, and every other address reads as before. -/
theorem Memory.byteAt_writeAll (m : Memory) (a a' : Nat) (bs : List Byte) :
    (m.writeAll a bs).byteAt a' = if a ≤ a' ∧ a' < a + bs.length then bs[a' - a]? else m.byteAt a' := by
  induction bs generalizing m a with
  | nil => simp [Memory.writeAll, show ¬ (a ≤ a' ∧ a' < a) by omega]
  | cons b bs ih =>
    rw [Memory.writeAll, ih, Memory.byteAt_write, List.length_cons]
    rcases Nat.lt_trichotomy a' a with hlt | heq | hgt
    · rw [if_neg (by omega), if_neg (by omega), if_neg (by omega)]
    · subst heq
      rw [if_neg (by omega), if_pos rfl, if_pos (by omega)]
      simp
    · by_cases hin : a' < a + 1 + bs.length
      · rw [if_pos (by omega), if_pos (by omega), show a' - a = a' - (a + 1) + 1 by omega,
          List.getElem?_cons_succ]
      · rw [if_neg (by omega), if_neg (by omega), if_neg (by omega)]

/-- Writing inside a bound keeps every cell inside it. -/
theorem Memory.writeAll_inside {m : Memory} {a n : Nat} {bs : List Byte} (hm : ∀ c ∈ m, c.1 < n)
    (h : a + bs.length ≤ n) : ∀ c ∈ m.writeAll a bs, c.1 < n := by
  induction bs generalizing m a with
  | nil => exact hm
  | cons b bs ih =>
    rw [List.length_cons] at h
    refine ih (m := m.write a b) (fun c hc => ?_) (by omega)
    rcases Memory.mem_write hc with rfl | hc
    · show a < n
      omega
    · exact hm c hc

/-- A cell that holds a value is one of Memory's cells. -/
theorem Memory.mem_of_byteAt {m : Memory} {a : Nat} {b : Byte} (h : m.byteAt a = some b) : (a, b) ∈ m := by
  induction m with
  | nil => simp [Memory.byteAt, Memory.unlisted] at h
  | cons c m ih =>
    obtain ⟨k, x⟩ := c
    simp only [Memory.byteAt] at h
    split at h
    · next hk => subst hk; simp_all
    · simp [ih h]

end Sys2Proof.Machine
end

