-- ==== Sys2Proof/Laws/PerInstr.lean ====
section
/-! SUPPORT. Statements for all instructions, one lemma per constructor. -/

namespace Sys2Proof.Laws.EncodedLength

/-- A well-formed instruction is encoded in as many bytes as the flag of its first byte says (R60, R68). -/
def Statement (i : Instr) : Prop :=
  i.wellFormed = true → ∃ opcode tail, encode i = opcode :: tail ∧ (encode i).length = lengthOf opcode

/-- The length of every opcode byte of a block. -/
theorem block_two (first last : Byte) (h : ∀ op, inBlock first last op = true → lengthOf op = 2) (op b1 : Byte)
    (hw : inBlock first last op = true) : [op, b1].length = lengthOf op := by
  rw [h op hw]
  rfl

theorem block_four (first last : Byte) (h : ∀ op, inBlock first last op = true → lengthOf op = 4)
    (op b1 b2 b3 : Byte) (hw : inBlock first last op = true) : [op, b1, b2, b3].length = lengthOf op := by
  rw [h op hw]
  rfl

theorem hlt (src dst : Reg) : Statement (.hlt src dst) := fun _ => ⟨_, _, rfl, rfl⟩
theorem nop (src dst : Reg) : Statement (.nop src dst) := fun _ => ⟨_, _, rfl, rfl⟩
theorem xor (src dst : Reg) : Statement (.xor src dst) := fun _ => ⟨_, _, rfl, rfl⟩
theorem add (src dst : Reg) : Statement (.add src dst) := fun _ => ⟨_, _, rfl, rfl⟩
theorem beq (a b base : Reg) (imm : BitVec 12) : Statement (.beq a b base imm) := fun _ => ⟨_, _, rfl, rfl⟩
theorem ldl (reg : Reg) (imm16 : BitVec 16) : Statement (.ldl reg imm16) := fun _ => ⟨_, _, rfl, rfl⟩
theorem ldh (reg : Reg) (imm16 : BitVec 16) : Statement (.ldh reg imm16) := fun _ => ⟨_, _, rfl, rfl⟩
theorem wml (reg : Reg) (imm16 : BitVec 16) : Statement (.wml reg imm16) := fun _ => ⟨_, _, rfl, rfl⟩
theorem wmh (reg : Reg) (imm16 : BitVec 16) : Statement (.wmh reg imm16) := fun _ => ⟨_, _, rfl, rfl⟩
theorem wmb (reg : Reg) (imm16 : BitVec 16) : Statement (.wmb reg imm16) := fun _ => ⟨_, _, rfl, rfl⟩
theorem ldc (reg : Reg) (imm16 : BitVec 16) : Statement (.ldc reg imm16) := fun _ => ⟨_, _, rfl, rfl⟩
theorem unassigned0407 (opcode byte1 : Byte) : Statement (.unassigned0407 opcode byte1) :=
  fun h => ⟨_, _, rfl, block_two 0x04 0x07 (by decide) opcode byte1 h⟩
theorem unassigned080F (opcode byte1 : Byte) : Statement (.unassigned080F opcode byte1) :=
  fun h => ⟨_, _, rfl, block_two 0x08 0x0F (by decide) opcode byte1 h⟩
theorem unassigned101F (opcode byte1 : Byte) : Statement (.unassigned101F opcode byte1) :=
  fun h => ⟨_, _, rfl, block_two 0x10 0x1F (by decide) opcode byte1 h⟩
theorem unassigned203F (opcode byte1 : Byte) : Statement (.unassigned203F opcode byte1) :=
  fun h => ⟨_, _, rfl, block_two 0x20 0x3F (by decide) opcode byte1 h⟩
theorem unassigned4141 (opcode byte1 byte2 byte3 : Byte) : Statement (.unassigned4141 opcode byte1 byte2 byte3) :=
  fun h => ⟨_, _, rfl, block_four 0x41 0x41 (by decide) opcode byte1 byte2 byte3 h⟩
theorem unassigned4243 (opcode byte1 byte2 byte3 : Byte) : Statement (.unassigned4243 opcode byte1 byte2 byte3) :=
  fun h => ⟨_, _, rfl, block_four 0x42 0x43 (by decide) opcode byte1 byte2 byte3 h⟩
theorem unassigned4447 (opcode byte1 byte2 byte3 : Byte) : Statement (.unassigned4447 opcode byte1 byte2 byte3) :=
  fun h => ⟨_, _, rfl, block_four 0x44 0x47 (by decide) opcode byte1 byte2 byte3 h⟩
theorem unassigned484F (opcode byte1 byte2 byte3 : Byte) : Statement (.unassigned484F opcode byte1 byte2 byte3) :=
  fun h => ⟨_, _, rfl, block_four 0x48 0x4F (by decide) opcode byte1 byte2 byte3 h⟩
theorem unassigned505F (opcode byte1 byte2 byte3 : Byte) : Statement (.unassigned505F opcode byte1 byte2 byte3) :=
  fun h => ⟨_, _, rfl, block_four 0x50 0x5F (by decide) opcode byte1 byte2 byte3 h⟩
theorem unassigned607F (opcode byte1 byte2 byte3 : Byte) : Statement (.unassigned607F opcode byte1 byte2 byte3) :=
  fun h => ⟨_, _, rfl, block_four 0x60 0x7F (by decide) opcode byte1 byte2 byte3 h⟩
theorem unassigned80BF (opcode byte1 : Byte) : Statement (.unassigned80BF opcode byte1) :=
  fun h => ⟨_, _, rfl, block_two 0x80 0xBF (by decide) opcode byte1 h⟩
theorem unassignedC6C7 (opcode byte1 byte2 byte3 : Byte) : Statement (.unassignedC6C7 opcode byte1 byte2 byte3) :=
  fun h => ⟨_, _, rfl, block_four 0xC6 0xC7 (by decide) opcode byte1 byte2 byte3 h⟩
theorem unassignedC8CF (opcode byte1 byte2 byte3 : Byte) : Statement (.unassignedC8CF opcode byte1 byte2 byte3) :=
  fun h => ⟨_, _, rfl, block_four 0xC8 0xCF (by decide) opcode byte1 byte2 byte3 h⟩
theorem unassignedD0DF (opcode byte1 byte2 byte3 : Byte) : Statement (.unassignedD0DF opcode byte1 byte2 byte3) :=
  fun h => ⟨_, _, rfl, block_four 0xD0 0xDF (by decide) opcode byte1 byte2 byte3 h⟩
theorem unassignedE0FF (opcode byte1 byte2 byte3 : Byte) : Statement (.unassignedE0FF opcode byte1 byte2 byte3) :=
  fun h => ⟨_, _, rfl, block_four 0xE0 0xFF (by decide) opcode byte1 byte2 byte3 h⟩

end Sys2Proof.Laws.EncodedLength
end

