-- ==== Sys2Proof/Laws/State.lean ====
section
/-! SUPPORT. One lemma per field per update of State, and reading a register after writing one. -/

namespace Sys2Proof.Machine

variable (s : State)

@[simp] theorem State.setReg_pc (i : Reg) (v : Word) : (s.setReg i v).pc = s.pc := rfl
@[simp] theorem State.setReg_mem (i : Reg) (v : Word) : (s.setReg i v).mem = s.mem := rfl
@[simp] theorem State.setReg_memLen (i : Reg) (v : Word) : (s.setReg i v).memLen = s.memLen := rfl
@[simp] theorem State.setReg_initPc (i : Reg) (v : Word) : (s.setReg i v).initPc = s.initPc := rfl
@[simp] theorem State.setReg_endPc (i : Reg) (v : Word) : (s.setReg i v).endPc = s.endPc := rfl
@[simp] theorem State.setReg_status (i : Reg) (v : Word) : (s.setReg i v).status = s.status := rfl
@[simp] theorem State.setReg_strictFaults (i : Reg) (v : Word) : (s.setReg i v).strictFaults = s.strictFaults := rfl
@[simp] theorem State.setReg_channel (i : Reg) (v : Word) : (s.setReg i v).channel = s.channel := rfl

@[simp] theorem State.commit_regs (cursor : Word) : (s.commit cursor).regs = s.regs := rfl
@[simp] theorem State.commit_pc (cursor : Word) : (s.commit cursor).pc = cursor := rfl
@[simp] theorem State.commit_mem (cursor : Word) : (s.commit cursor).mem = s.mem := rfl
@[simp] theorem State.commit_memLen (cursor : Word) : (s.commit cursor).memLen = s.memLen := rfl
@[simp] theorem State.commit_initPc (cursor : Word) : (s.commit cursor).initPc = s.initPc := rfl
@[simp] theorem State.commit_endPc (cursor : Word) : (s.commit cursor).endPc = s.endPc := rfl
@[simp] theorem State.commit_status (cursor : Word) : (s.commit cursor).status = s.status := rfl
@[simp] theorem State.commit_strictFaults (cursor : Word) : (s.commit cursor).strictFaults = s.strictFaults := rfl
@[simp] theorem State.commit_channel (cursor : Word) : (s.commit cursor).channel = s.channel.map fun c => sendOn c s.pc := rfl

@[simp] theorem State.stop_regs (cause : Status) : (s.stop cause).regs = s.regs := rfl
@[simp] theorem State.stop_pc (cause : Status) : (s.stop cause).pc = s.pc := rfl
@[simp] theorem State.stop_mem (cause : Status) : (s.stop cause).mem = s.mem := rfl
@[simp] theorem State.stop_memLen (cause : Status) : (s.stop cause).memLen = s.memLen := rfl
@[simp] theorem State.stop_initPc (cause : Status) : (s.stop cause).initPc = s.initPc := rfl
@[simp] theorem State.stop_endPc (cause : Status) : (s.stop cause).endPc = s.pc := rfl
@[simp] theorem State.stop_status (cause : Status) : (s.stop cause).status = cause := rfl
@[simp] theorem State.stop_strictFaults (cause : Status) : (s.stop cause).strictFaults = s.strictFaults := rfl
@[simp] theorem State.stop_channel (cause : Status) : (s.stop cause).channel = s.channel.map closeChannel := rfl

@[simp] theorem State.startRun_regs : (s.startRun).regs = s.regs := rfl
@[simp] theorem State.startRun_pc : (s.startRun).pc = s.initPc := rfl
@[simp] theorem State.startRun_mem : (s.startRun).mem = s.mem := rfl
@[simp] theorem State.startRun_memLen : (s.startRun).memLen = s.memLen := rfl
@[simp] theorem State.startRun_initPc : (s.startRun).initPc = s.initPc := rfl
@[simp] theorem State.startRun_endPc : (s.startRun).endPc = s.endPc := rfl
@[simp] theorem State.startRun_status : (s.startRun).status = .running := rfl
@[simp] theorem State.startRun_strictFaults : (s.startRun).strictFaults = s.strictFaults := rfl
@[simp] theorem State.startRun_channel : (s.startRun).channel = s.channel.map fun c => { c with pending := none, closed := false } := rfl

@[simp] theorem State.getReg_setReg (i j : Reg) (v : Word) :
    (s.setReg i v).getReg j = if j = i then v else s.getReg j := by
  simp [State.getReg, State.setReg, Vector.getElem_set, BitVec.toNat_inj, eq_comm]

@[simp] theorem State.getReg_commit (cursor : Word) (j : Reg) : (s.commit cursor).getReg j = s.getReg j := rfl

@[simp] theorem State.getReg_stop (cause : Status) (j : Reg) : (s.stop cause).getReg j = s.getReg j := rfl

@[simp] theorem State.getReg_startRun (j : Reg) : s.startRun.getReg j = s.getReg j := rfl

@[simp] theorem sendOn_pending (c : Channel) (here : Word) : (sendOn c here).pending = some here := rfl
@[simp] theorem sendOn_closed (c : Channel) (here : Word) : (sendOn c here).closed = c.closed := rfl
@[simp] theorem sendOn_replies (c : Channel) (here : Word) : (sendOn c here).replies = c.replies := rfl
@[simp] theorem closeChannel_pending (c : Channel) : (closeChannel c).pending = c.pending := rfl
@[simp] theorem closeChannel_closed (c : Channel) : (closeChannel c).closed = true := rfl
@[simp] theorem closeChannel_replies (c : Channel) : (closeChannel c).replies = c.replies := rfl

/-- Reading Memory depends on the cells and on `MEMLEN` only. -/
theorem State.readByte_congr (s t : State) (hm : t.mem = s.mem) (hl : t.memLen = s.memLen) (a : Nat) :
    t.readByte a = s.readByte a := by
  simp [State.readByte, hm, hl]

end Sys2Proof.Machine
end

