-- ==== Sys2Proof/Laws/Step.lean ====
section
/-! SUPPORT. Everything an instruction can do, everything a step can do, and what reading Memory and
fetching can give: the lemmas to cite in place of the definitions. -/

namespace Sys2Proof.Machine

variable {s t : State} {i : Instr}

/-! ## Reading and fetching -/

/-- A byte inside Memory that holds a value is read. -/
theorem State.readByte_ok_iff {a : Nat} {b : Byte} :
    s.readByte a = .ok b ↔ a < s.memLen.val ∧ s.mem.byteAt a = some b := by
  unfold State.readByte
  split
  · next h => cases hb : s.mem.byteAt a <;> simp [h]
  · next h => simp [h]

/-- A read faults for a byte without a value, and past the end of Memory, and for no other reason. -/
theorem State.readByte_error {a : Nat} {f : Fault} (h : s.readByte a = .error f) :
    (a < s.memLen.val ∧ s.mem.byteAt a = none ∧ f = .unwrittenByte a) ∨
      (s.memLen.val ≤ a ∧ f = .addressOutsideMemory a) := by
  unfold State.readByte at h
  split at h
  · next hlt =>
    left
    cases hb : s.mem.byteAt a with
    | none =>
      simp only [hb] at h
      exact ⟨hlt, rfl, by simpa using h.symm⟩
    | some b => simp [hb] at h
  · next hge => exact .inr ⟨by omega, by simpa using h.symm⟩

/-- Reading `n` bytes gives `n` bytes, each the byte at its address. -/
theorem State.readBytes_ok {a n : Nat} {bs : List Byte} (h : s.readBytes a n = .ok bs) :
    bs.length = n ∧ ∀ k, (hk : k < bs.length) → s.readByte (a + k) = .ok bs[k] := by
  induction n generalizing a bs with
  | zero =>
    simp only [State.readBytes, Result.ok.injEq] at h
    subst h
    simp
  | succ n ih =>
    simp only [State.readBytes] at h
    split at h
    · simp at h
    · next b hb =>
      split at h
      · simp at h
      · next cs hcs =>
        simp only [Result.ok.injEq] at h
        subst h
        obtain ⟨hl, hr⟩ := ih hcs
        refine ⟨by simp [hl], ?_⟩
        intro k hk
        cases k with
        | zero => simpa using hb
        | succ k =>
          have := hr k (by simpa using hk)
          rw [show a + (k + 1) = a + 1 + k by omega, List.getElem_cons_succ]
          exact this

/-- The bytes at their addresses are what reading them gives. -/
theorem State.readBytes_of_readByte {a : Nat} {bs : List Byte}
    (h : ∀ k, (hk : k < bs.length) → s.readByte (a + k) = .ok bs[k]) : s.readBytes a bs.length = .ok bs := by
  induction bs generalizing a with
  | nil => rfl
  | cons b bs ih =>
    have h0 := h 0 (by simp)
    simp only [Nat.add_zero, List.getElem_cons_zero] at h0
    have hr := ih (a := a + 1) fun k hk => by
      have := h (k + 1) (by simpa using hk)
      rw [List.getElem_cons_succ] at this
      rw [show a + 1 + k = a + (k + 1) by omega]
      exact this
    simp only [List.length_cons, State.readBytes, h0, hr]

/-- Reading bytes faults only at one of their addresses. -/
theorem State.readBytes_error {a n : Nat} {f : Fault} (h : s.readBytes a n = .error f) :
    ∃ k, k < n ∧ s.readByte (a + k) = .error f := by
  induction n generalizing a with
  | zero => simp [State.readBytes] at h
  | succ n ih =>
    simp only [State.readBytes] at h
    split at h
    · next f' hf =>
      simp only [Result.error.injEq] at h
      subst h
      exact ⟨0, by omega, by simpa using hf⟩
    · split at h
      · next f' hf =>
        simp only [Result.error.injEq] at h
        subst h
        obtain ⟨k, hk, he⟩ := ih hf
        exact ⟨k + 1, by omega, by rw [show a + (k + 1) = a + 1 + k by omega]; exact he⟩
      · simp at h

/-- A fetch reads the opcode byte and the bytes its length asks for, and decodes them. -/
theorem State.fetch_ok_iff : s.fetch = .ok i ↔ ∃ opcode tail, s.readByte s.pc.toNat = .ok opcode ∧
    s.readBytes (s.pc.toNat + 1) (lengthOf opcode - 1) = .ok tail ∧
    i = decodeWindow (windowOf (opcode :: tail)) := by
  unfold State.fetch
  cases hb : s.readByte s.pc.toNat with
  | error f => simp
  | ok opcode =>
    cases ht : s.readBytes (s.pc.toNat + 1) (lengthOf opcode - 1) with
    | error f => simp [ht]
    | ok tail => simp [ht, eq_comm]

/-- A fetch faults only at one of the four addresses from the pc. -/
theorem State.fetch_error {f : Fault} (h : s.fetch = .error f) :
    ∃ k, k < 4 ∧ s.readByte (s.pc.toNat + k) = .error f := by
  unfold State.fetch at h
  split at h
  · next f' hf =>
    simp only [Result.error.injEq] at h
    subst h
    exact ⟨0, by omega, by simpa using hf⟩
  · next opcode hop =>
    split at h
    · next f' hf =>
      simp only [Result.error.injEq] at h
      subst h
      obtain ⟨k, hk, he⟩ := State.readBytes_error hf
      have := lengthOf_cases opcode
      exact ⟨k + 1, by omega, by rw [show s.pc.toNat + (k + 1) = s.pc.toNat + 1 + k by omega]; exact he⟩
    · simp at h

/-- Reading four bytes at once gives the same instruction (R43): a 2-byte instruction does not look at the
window's upper half. -/
theorem decodeWindow_two (b0 b1 b2 b3 : Byte) (h : lengthOf b0 = 2) :
    decodeWindow (windowOf [b0, b1, b2, b3]) = decodeWindow (windowOf [b0, b1]) := by
  have hc : ∀ op : Byte, lengthOf op = 2 → classify op ∈ [Row.hlt, .nop, .xor, .add, .unassigned0407,
      .unassigned080F, .unassigned101F, .unassigned203F, .unassigned80BF] := by decide
  have := hc b0 h
  unfold decodeWindow
  simp only [opcodeField_windowOf, srcField_eq, dstField_eq, byte1Field_windowOf]
  generalize classify b0 = row at this
  cases row <;> first | rfl | (exfalso; revert this; decide)

/-! ## The channel -/

theorem State.suspended_iff : s.suspended = true ↔ ∃ c a, s.channel = some c ∧ c.pending = some a := by
  unfold State.suspended
  split
  · next c hc => simp [Option.isSome_iff_exists, hc]
  · next hc => simp [hc]

theorem State.aborted_iff : s.aborted = true ↔
    ∃ c rest, s.channel = some c ∧ c.replies = .abort :: rest := by
  unfold State.aborted
  split
  · next c hc => simp [hc, List.head?_eq_some_iff]
  · next hc => simp [hc]

/-- No channel, nothing to close. -/
theorem State.aborted_of_none (h : s.channel = none) : s.aborted = false := by
  simp [State.aborted, h]

/-- An observer that only acknowledges does not close the channel. -/
theorem State.aborted_of_dutiful (h : s.DutifulObserver) : s.aborted = false := by
  cases ha : s.aborted with
  | false => rfl
  | true =>
    obtain ⟨c, rest, hc, hr⟩ := State.aborted_iff.1 ha
    obtain ⟨v, hv⟩ := h c hc .abort (by simp [hr])
    cases hv

/-! ## What an instruction can do -/

/-- Every instruction answers a next state. -/
theorem exec_next (i : Instr) (s : State) : ∃ t, exec i s = .next t := by
  cases i <;> exact ⟨_, rfl⟩

/-- The three shapes of an instruction's effect: it writes its destination and goes on, it goes on and
writes no register, or it stops the run. -/
theorem exec_shape (h : exec i s = .next t) :
    (∃ r v, i.destination = some r ∧ ∃ cursor, t = (s.setReg r v).commit cursor) ∨
    (i.destination = none ∧ ∃ cursor, t = s.commit cursor) ∨
    (i.destination = none ∧ ∃ cause, cause ≠ .running ∧ ∃ pc, t = State.stop { s with pc := pc } cause) := by
  have skipped : ∀ (opcode : Byte), t = s.noDispatch opcode →
      ((∃ cursor, t = s.commit cursor) ∨
        ∃ cause, cause ≠ .running ∧ ∃ pc, t = State.stop { s with pc := pc } cause) := by
    intro opcode ht
    unfold State.noDispatch at ht
    split at ht
    · exact .inr ⟨_, by simp, s.pc, ht⟩
    · exact .inl ⟨_, ht⟩
  cases i with
  | hlt src dst =>
    injection h with h
    exact .inr (.inr ⟨rfl, .halted, by decide, s.pc + 2, h.symm⟩)
  | nop src dst =>
    injection h with h
    exact .inr (.inl ⟨rfl, _, h.symm⟩)
  | xor src dst =>
    injection h with h
    exact .inl ⟨_, _, rfl, _, h.symm⟩
  | add src dst =>
    injection h with h
    exact .inl ⟨_, _, rfl, _, h.symm⟩
  | beq a b base imm =>
    injection h with h
    exact .inr (.inl ⟨rfl, _, h.symm⟩)
  | ldl reg imm16 =>
    injection h with h
    exact .inl ⟨_, _, rfl, _, h.symm⟩
  | ldh reg imm16 =>
    injection h with h
    exact .inl ⟨_, _, rfl, _, h.symm⟩
  | _ =>
    injection h with h
    rcases skipped _ h.symm with h | h
    · exact .inr (.inl ⟨rfl, h⟩)
    · exact .inr (.inr ⟨rfl, h⟩)

/-! ## What a step can do -/

/-- The cases of a step that answers a next state: a stopped core is idle; otherwise the observer is not
closing the channel, and a suspended core has no answer or takes an acknowledgment, a core outside the bounds stops, and otherwise an instruction runs. -/
theorem step_cases (h : step s = .next t) :
    (s.status ≠ .running ∧ t = s) ∨
    (s.status = .running ∧ s.aborted = false ∧ s.suspended = true ∧
      ((∃ c, s.channel = some c ∧ c.replies = [] ∧ t = s) ∨
        ∃ c v rest, s.channel = some c ∧ c.replies = .acknowledge v :: rest ∧
          t = { s with channel := some { c with pending := none, replies := rest } })) ∨
    (s.status = .running ∧ s.aborted = false ∧ s.suspended = false ∧ s.fetchInBounds = false ∧ t = s.stop .fetchOutOfBounds) ∨
    (s.status = .running ∧ s.aborted = false ∧ s.suspended = false ∧ s.fetchInBounds = true ∧
      ∃ i, s.fetch = .ok i ∧ exec i s = .next t) := by
  unfold step at h
  split at h
  · next hs =>
    injection h with h
    exact .inl ⟨hs, h.symm⟩
  · next hs =>
    have hs : s.status = .running := by simpa using hs
    split at h
    · cases h
    next ha =>
    have ha : s.aborted = false := by simpa using ha
    split at h
    · next hp =>
      obtain ⟨c, a, hc, -⟩ := State.suspended_iff.1 hp
      refine .inr (.inl ⟨hs, ha, hp, ?_⟩)
      unfold State.awaitReply at h
      simp only [hc] at h
      split at h
      · next hr =>
        injection h with h
        exact .inl ⟨c, hc, hr, h.symm⟩
      · next v rest hr =>
        injection h with h
        exact .inr ⟨c, v, rest, hc, hr, h.symm⟩
      · cases h
      · cases h
    · next hp =>
      have hp : s.suspended = false := by simpa using hp
      split at h
      · next hb =>
        refine .inr (.inr (.inr ⟨hs, ha, hp, hb, ?_⟩))
        split at h
        · next i hi => exact ⟨i, hi, h⟩
        · cases h
      · next hb =>
        injection h with h
        exact .inr (.inr (.inl ⟨hs, ha, hp, by simpa using hb, h.symm⟩))

/-- The step of a stopped core. -/
theorem step_of_stopped (h : s.status ≠ .running) : step s = .next s := by
  simp [step, h]

/-- The step of a core that takes an instruction. -/
theorem step_of_fetch (hs : s.status = .running) (ha : s.aborted = false) (hp : s.suspended = false)
    (hb : s.fetchInBounds = true) (hi : s.fetch = .ok i) : step s = exec i s := by
  simp [step, hs, ha, hp, hb, hi]

/-- The step of a running core whose observer closes the channel. -/
theorem step_of_aborted (hs : s.status = .running) (ha : s.aborted = true) :
    step s = .refused .channelAborted := by
  simp [step, hs, ha]

/-- The step of a suspended core. -/
theorem step_of_suspended (hs : s.status = .running) (ha : s.aborted = false) (hp : s.suspended = true) :
    step s = s.awaitReply := by
  simp [step, hs, ha, hp]

/-- The step of a core outside the bounds. -/
theorem step_of_outOfBounds (hs : s.status = .running) (ha : s.aborted = false) (hp : s.suspended = false)
    (hb : s.fetchInBounds = false) : step s = .next (s.stop .fetchOutOfBounds) := by
  simp [step, hs, ha, hp, hb]

/-- A step faults only where a fetch does. -/
theorem step_fault {f : Fault} (h : step s = .fault f) :
    s.status = .running ∧ s.aborted = false ∧ s.suspended = false ∧ s.fetchInBounds = true ∧
      s.fetch = .error f := by
  unfold step at h
  split at h
  · cases h
  · next hs =>
    split at h
    · cases h
    next ha =>
    split at h
    · unfold State.awaitReply at h
      split at h
      · cases h
      · split at h <;> cases h
    · next hp =>
      split at h
      · next hb =>
        split at h
        · next i hi =>
          obtain ⟨u, hu⟩ := exec_next i s
          rw [hu] at h
          cases h
        · next g hg =>
          injection h with h
          subst h
          exact ⟨by simpa using hs, by simpa using ha, by simpa using hp, hb, hg⟩
      · cases h

end Sys2Proof.Machine
end

