-- ==== Sys2Proof/Laws/Run.lean ====
section
/-! SUPPORT. Runs of several steps: unfolding the first one, and the induction over a run done once. -/

namespace Sys2Proof.Machine

/-- A run that starts with a step that goes on. -/
theorem core_run_succ (M : Host.Core) (n : Nat) (s u : M.State) (h : M.step s = .next u) :
    M.run (n + 1) s = M.run n u := by
  simp [Host.Core.run, h]

/-- A run of one more step answers a next state only through the next state of its first step. -/
theorem core_run_succ_next (M : Host.Core) (n : Nat) (s t : M.State) (h : M.run (n + 1) s = .next t) :
    ∃ u, M.step s = .next u ∧ M.run n u = .next t := by
  simp only [Host.Core.run] at h
  split at h
  · next u hu => exact ⟨u, hu, h⟩
  · cases h
  · cases h

theorem run_zero (s : State) : Host.Core.run Sys2Proof.core 0 s = .next s := rfl

theorem run_succ {s u : State} (n : Nat) (h : step s = .next u) :
    Host.Core.run Sys2Proof.core (n + 1) s = Host.Core.run Sys2Proof.core n u :=
  core_run_succ Sys2Proof.core n s u h

theorem run_succ_next {s t : State} {n : Nat} (h : Host.Core.run Sys2Proof.core (n + 1) s = .next t) :
    ∃ u, step s = .next u ∧ Host.Core.run Sys2Proof.core n u = .next t :=
  core_run_succ_next Sys2Proof.core n s t h

/-- What every step keeps, every run keeps. -/
theorem run_keeps {P : State → Prop} (hstep : ∀ s t, P s → step s = .next t → P t) {n : Nat} {s t : State}
    (hs : P s) (h : Host.Core.run Sys2Proof.core n s = .next t) : P t := by
  induction n generalizing s with
  | zero =>
    rw [run_zero] at h
    injection h with h
    exact h ▸ hs
  | succ n ih =>
    obtain ⟨u, hu, hr⟩ := run_succ_next h
    exact ih (hstep s u hs hu) hr

end Sys2Proof.Machine
end

