-- ==== Sys2Proof/Tests/Slice0.lean ====
section
/-! SUPPORT. The model's own tests. Every expected value is taken from spec/95_test_vectors.md or computed by
hand from a rule of spec/; none is the model's own answer. The last section shows, for each statement that
has hypotheses, concrete inputs that meet them. -/

namespace Sys2Proof.Tests

open Sys2Proof Sys2Proof.Machine

/-! ## Helpers -/

/-- A launch with these bytes from address 0, `MEMLEN` their number, and these registers set. -/
def launch (bytes : List Byte) (start : Word) (regs : List (Reg × Word)) : State :=
  regs.foldl (fun s p => s.setReg p.1 p.2)
    { State.reset with
      pc := start
      initPc := start
      mem := Memory.writeAll [] 0 bytes
      memLen := Fin.ofNat 4294967297 bytes.length }

/-- The same launch with `STRICT_FAULTS` on. -/
def strict (s : State) : State := { s with strictFaults := true }

/-- The same launch with a channel whose observer will give these answers. -/
def hooked (replies : List Reply) (s : State) : State :=
  { s with channel := some { pending := none, closed := false, replies := replies } }

/-! ## Well-formed instructions: each block check refuses the bytes next to the block (R74) -/

theorem test_block_0407 : (Instr.unassigned0407 0x03 0).wellFormed = false ∧
    (Instr.unassigned0407 0x08 0).wellFormed = false ∧ (Instr.unassigned0407 0x07 0).wellFormed = true := by decide
theorem test_block_080F : (Instr.unassigned080F 0x07 0).wellFormed = false ∧
    (Instr.unassigned080F 0x10 0).wellFormed = false ∧ (Instr.unassigned080F 0x0F 0).wellFormed = true := by decide
theorem test_block_101F : (Instr.unassigned101F 0x0F 0).wellFormed = false ∧
    (Instr.unassigned101F 0x20 0).wellFormed = false ∧ (Instr.unassigned101F 0x1F 0).wellFormed = true := by decide
theorem test_block_203F : (Instr.unassigned203F 0x1F 0).wellFormed = false ∧
    (Instr.unassigned203F 0x40 0).wellFormed = false ∧ (Instr.unassigned203F 0x3F 0).wellFormed = true := by decide
theorem test_block_4141 : (Instr.unassigned4141 0x40 0 0 0).wellFormed = false ∧
    (Instr.unassigned4141 0x42 0 0 0).wellFormed = false ∧ (Instr.unassigned4141 0x41 0 0 0).wellFormed = true := by
  decide
theorem test_block_4243 : (Instr.unassigned4243 0x41 0 0 0).wellFormed = false ∧
    (Instr.unassigned4243 0x44 0 0 0).wellFormed = false ∧ (Instr.unassigned4243 0x43 0 0 0).wellFormed = true := by
  decide
theorem test_block_4447 : (Instr.unassigned4447 0x43 0 0 0).wellFormed = false ∧
    (Instr.unassigned4447 0x48 0 0 0).wellFormed = false ∧ (Instr.unassigned4447 0x47 0 0 0).wellFormed = true := by
  decide
theorem test_block_484F : (Instr.unassigned484F 0x47 0 0 0).wellFormed = false ∧
    (Instr.unassigned484F 0x50 0 0 0).wellFormed = false ∧ (Instr.unassigned484F 0x4F 0 0 0).wellFormed = true := by
  decide
theorem test_block_505F : (Instr.unassigned505F 0x4F 0 0 0).wellFormed = false ∧
    (Instr.unassigned505F 0x60 0 0 0).wellFormed = false ∧ (Instr.unassigned505F 0x5F 0 0 0).wellFormed = true := by
  decide
theorem test_block_607F : (Instr.unassigned607F 0x5F 0 0 0).wellFormed = false ∧
    (Instr.unassigned607F 0x80 0 0 0).wellFormed = false ∧ (Instr.unassigned607F 0x7F 0 0 0).wellFormed = true := by
  decide
theorem test_block_80BF : (Instr.unassigned80BF 0x7F 0).wellFormed = false ∧
    (Instr.unassigned80BF 0xC0 0).wellFormed = false ∧ (Instr.unassigned80BF 0xBF 0).wellFormed = true := by decide
theorem test_block_C6C7 : (Instr.unassignedC6C7 0xC5 0 0 0).wellFormed = false ∧
    (Instr.unassignedC6C7 0xC8 0 0 0).wellFormed = false ∧ (Instr.unassignedC6C7 0xC7 0 0 0).wellFormed = true := by
  decide
theorem test_block_C8CF : (Instr.unassignedC8CF 0xC7 0 0 0).wellFormed = false ∧
    (Instr.unassignedC8CF 0xD0 0 0 0).wellFormed = false ∧ (Instr.unassignedC8CF 0xCF 0 0 0).wellFormed = true := by
  decide
theorem test_block_D0DF : (Instr.unassignedD0DF 0xCF 0 0 0).wellFormed = false ∧
    (Instr.unassignedD0DF 0xE0 0 0 0).wellFormed = false ∧ (Instr.unassignedD0DF 0xDF 0 0 0).wellFormed = true := by
  decide
theorem test_block_E0FF : (Instr.unassignedE0FF 0xDF 0 0 0).wellFormed = false ∧
    (Instr.unassignedE0FF 0x00 0 0 0).wellFormed = false ∧ (Instr.unassignedE0FF 0xFF 0 0 0).wellFormed = true := by
  decide

/-! ## Decoding: one word for each constructor, written out bit by bit from R61 to R67 -/

/-- `00 5A`: byte 1 is `src` then `dst`. -/
theorem test_decode_hlt : decode [0b00000000, 0b01011010] = .ok (.hlt 5 10, []) := by decide
theorem test_decode_nop : decode [0b00000001, 0b11111111] = .ok (.nop 15 15, []) := by decide
theorem test_decode_xor : decode [0b00000010, 0b00010010] = .ok (.xor 1 2, []) := by decide
theorem test_decode_add : decode [0b00000011, 0b11110000] = .ok (.add 15 0, []) := by decide
/-- The base is the high nibble of byte 2, and its low nibble the high nibble of the field (R64, R65). -/
theorem test_decode_beq :
    decode [0b01000000, 0b00000001, 0b00101000, 0b00000010] = .ok (.beq 0 1 2 0x802, []) := by decide
theorem test_decode_beq_all_fields :
    decode [0b01000000, 0b11111110, 0b11010111, 0b11111111] = .ok (.beq 15 14 13 0x7FF, []) := by decide
/-- The low byte of the half-word comes first, and the `unused` nibble is ignored (R66). -/
theorem test_decode_ldl :
    decode [0b11000000, 0b11110011, 0b11101101, 0b11111110] = .ok (.ldl 3 0xFEED, []) := by decide
theorem test_decode_ldh :
    decode [0b11000001, 0b00001111, 0b00110100, 0b00010010] = .ok (.ldh 15 0x1234, []) := by decide
theorem test_decode_wml :
    decode [0b11000010, 0b00000101, 0b00110100, 0b00010010] = .ok (.wml 5 0x1234, []) := by decide
theorem test_decode_wmh :
    decode [0b11000011, 0b00000110, 0b00000001, 0b00000000] = .ok (.wmh 6 0x0001, []) := by decide
theorem test_decode_wmb :
    decode [0b11000100, 0b00000111, 0b00000000, 0b10000000] = .ok (.wmb 7 0x8000, []) := by decide
theorem test_decode_ldc :
    decode [0b11000101, 0b00000000, 0b00000000, 0b00000000] = .ok (.ldc 0 0, []) := by decide
theorem test_decode_0407 : decode [0b00000100, 0b00010010] = .ok (.unassigned0407 0x04 0x12, []) := by decide
theorem test_decode_080F : decode [0b00001111, 0b00000000] = .ok (.unassigned080F 0x0F 0, []) := by decide
theorem test_decode_101F : decode [0b00010000, 0b00000000] = .ok (.unassigned101F 0x10 0, []) := by decide
theorem test_decode_203F : decode [0b00111111, 0b00000000] = .ok (.unassigned203F 0x3F 0, []) := by decide
theorem test_decode_4141 :
    decode [0b01000001, 0b00000000, 0b00000000, 0b00000000] = .ok (.unassigned4141 0x41 0 0 0, []) := by decide
theorem test_decode_4243 :
    decode [0b01000011, 0b00000001, 0b00000010, 0b00000011] = .ok (.unassigned4243 0x43 1 2 3, []) := by decide
theorem test_decode_4447 :
    decode [0b01000100, 0b00000001, 0b00000010, 0b00000011] = .ok (.unassigned4447 0x44 1 2 3, []) := by decide
theorem test_decode_484F :
    decode [0b01001111, 0b00000001, 0b00000010, 0b00000011] = .ok (.unassigned484F 0x4F 1 2 3, []) := by decide
theorem test_decode_505F :
    decode [0b01010000, 0b00000001, 0b00000010, 0b00000011] = .ok (.unassigned505F 0x50 1 2 3, []) := by decide
theorem test_decode_607F :
    decode [0b01111111, 0b00000001, 0b00000010, 0b00000011] = .ok (.unassigned607F 0x7F 1 2 3, []) := by decide
/-- Flag `0b10`: two bytes, of which the second is read and ignored (R67). -/
theorem test_decode_80BF : decode [0b10000000, 0b11111111, 0b00000001] =
    .ok (.unassigned80BF 0x80 0xFF, [0b00000001]) := by decide
theorem test_decode_C6C7 :
    decode [0b11000110, 0b00000000, 0b00000000, 0b00000000] = .ok (.unassignedC6C7 0xC6 0 0 0, []) := by decide
theorem test_decode_C8CF :
    decode [0b11001000, 0b00000001, 0b00000010, 0b00000011] = .ok (.unassignedC8CF 0xC8 1 2 3, []) := by decide
theorem test_decode_D0DF :
    decode [0b11011111, 0b00000001, 0b00000010, 0b00000011] = .ok (.unassignedD0DF 0xDF 1 2 3, []) := by decide
theorem test_decode_E0FF :
    decode [0b11111111, 0b11111111, 0b11111111, 0b11111111] =
      .ok (.unassignedE0FF 0xFF 0xFF 0xFF 0xFF, []) := by decide

/-- The table's numbering: bit 0 is the least significant bit of byte 0. -/
theorem test_table_word : decodeTableWord 32 0xFEEDF3C0 = some (.ldl 3 0xFEED) := by decide
/-- Bits above `nbits` are 0. -/
theorem test_table_word_short : decodeTableWord 8 0xFFC0 = some (.ldl 0 0) := by decide

/-- A list that ends inside the instruction is refused by name. -/
theorem test_decode_truncated : decode [0xC0, 0x03, 0xED] = .error (.truncated 0xC0) ∧
    decode [] = .error .noBytes := ⟨by decide, by decide⟩

/-! ## Encoding (95_test_vectors.md 2.9) -/

theorem test_emit_regs_truncates : emitRegs 0x03 0x1F 0x22 = [0x03, 0xF2] := by decide
theorem test_emit_imm16_truncates : emitImm16 0xC1 0x13 0x1CAFE = [0xC1, 0x03, 0xFE, 0xCA] := by decide
theorem test_emit_imm12_truncates : emitImm12 0x40 0 1 2 0x1802 = [0x40, 0x01, 0x28, 0x02] := by decide
/-- The caller's two's-complement -2 is emitted as `0xFFE`, which decodes to -2046 (R71). -/
theorem test_emit_imm12_negative : emitImm12 0x40 0 1 2 (-2) = [0x40, 0x01, 0x2F, 0xFE] ∧
    smag12 0xFFE = -2046 := by decide
/-- The format of the opcode is the caller's business (R82, R185). -/
theorem test_emit_wrong_format : emitRegs 0xC0 0 3 = [0xC0, 0x03] := by decide

/-! ## Offsets (95_test_vectors.md 2.2) -/

theorem test_smag12_positive : smag12 0x000 = 0 ∧ smag12 0x001 = 1 ∧ smag12 0x7FF = 2047 := by decide
theorem test_smag12_negative : smag12 0x800 = 0 ∧ smag12 0x801 = -1 ∧ smag12 0x802 = -2 ∧
    smag12 0xC00 = -1024 ∧ smag12 0xFFF = -2047 := by decide

/-! ## Text (95_test_vectors.md 2.8) -/

theorem test_line_comma_and_tab : encodeLine false "XOR\tra,rb".toList = .ok [0x02, 0x01] := by decide
theorem test_line_no_operands : encodeLine false "ADD".toList = .ok [0x03, 0x00] := by decide
theorem test_line_source_first : encodeLine false "ADD rp ra".toList = .ok [0x03, 0xF0] := by decide
theorem test_line_beq : encodeLine false "BEQ rp ro rn 7ff".toList = .ok [0x40, 0xFE, 0xD7, 0xFF] := by decide
theorem test_line_leading_zero : encodeLine false "BEQ ra rb rc 0FFF".toList = .ok [0x40, 0x01, 0x2F, 0xFF] := by
  decide
theorem test_line_prefixed_literal : encodeLine false "BEQ ra rb rc 0x10".toList = .error .syntaxError := by decide
theorem test_line_case : encodeLine false "add ra rb".toList = .error .unknownInstruction := by decide
theorem test_line_registers_before_literal :
    encodeLine false "BEQ ra rx rc zz".toList = .error .unknownRegister := by decide
theorem test_line_empty : encodeLine false [] = .error .syntaxError := by decide
theorem test_line_imm16_off : encodeLine false "LDL rd FEED".toList = .error .syntaxError := by decide
theorem test_line_imm16_on : encodeLine true "LDL rd FEED".toList = .ok [0xC0, 0x03, 0xED, 0xFE] := by decide
theorem test_lines_failure : encodeLines false (["NOP", "ADD ra rb", "BAD", "HLT"].map String.toList) =
    ([0x01, 0x00, 0x03, 0x01], .error (2, .unknownInstruction)) := by decide
theorem test_lines_success : encodeLines false (["XOR ra ra", "BEQ ra ra ra 0", "HLT"].map String.toList) =
    ([0x02, 0x00, 0x40, 0x00, 0x00, 0x00, 0x00, 0x00], .ok 3) := by decide
theorem test_lines_none : encodeLines false [] = ([], .ok 0) := by decide
/-- R83: leading, trailing and repeated separators of all three kinds. -/
theorem test_tokens : tokens " \t,ADD,,ra\t rb, ".toList = [['A', 'D', 'D'], ['r', 'a'], ['r', 'b']] := by decide
theorem test_line_separators_only : encodeLine false " ,\t".toList = .error .syntaxError := by decide
theorem test_listing : listing (.beq 0 1 2 0x802) = "BEQ ra rb rc 802".toList := by decide

/-! ## One step of each instruction (95_test_vectors.md part 1 and 2.3 to 2.7) -/

/-- S6: `END_PC` lies just past the instruction, whatever its ignored fields. -/
theorem test_hlt : ∃ t, step (launch [0x00, 0x5A, 0x00, 0x00] 0 []) = .next t ∧
    t.status = .halted ∧ t.endPc = 2 ∧ t.pc = 2 := ⟨_, rfl, by decide⟩
/-- 2.7: an odd pc fetches at the odd address. -/
theorem test_hlt_odd_pc : ∃ t, step (launch [0xFF, 0x00, 0x00, 0x00, 0x00, 0x00, 0x00] 1 []) = .next t ∧
    t.status = .halted ∧ t.endPc = 3 := ⟨_, rfl, by decide⟩

theorem test_nop : ∃ t, step (launch [0x01, 0x00, 0x00, 0x00, 0x00, 0x00] 0 []) = .next t ∧
    t.status = .running ∧ t.pc = 2 ∧ t.endPc = 0 := ⟨_, rfl, by decide⟩

theorem test_xor : ∃ t, step (launch [0x02, 0x12, 0, 0] 0 [(1, 0x0F0F0F0F), (2, 0xFFFF0000)]) = .next t ∧
    t.getReg 2 = 0xF0F00F0F ∧ t.getReg 1 = 0x0F0F0F0F ∧ t.pc = 2 := ⟨_, rfl, by decide⟩
/-- S2: source and destination the same register. -/
theorem test_xor_self : ∃ t, step (launch [0x02, 0x55, 0, 0] 0 [(5, 0xCAFEBABE)]) = .next t ∧
    t.getReg 5 = 0 := ⟨_, rfl, by decide⟩

/-- S3: the overflow wraps. -/
theorem test_add_wraps : ∃ t, step (launch [0x03, 0x10, 0, 0] 0 [(0, 0xFFFFFFFF), (1, 1)]) = .next t ∧
    t.getReg 0 = 0 ∧ t.getReg 1 = 1 ∧ t.pc = 2 := ⟨_, rfl, by decide⟩
theorem test_add_self : ∃ t, step (launch [0x03, 0x66, 0, 0] 0 [(6, 0x80000001)]) = .next t ∧
    t.getReg 6 = 2 := ⟨_, rfl, by decide⟩

/-- The row that tells apart a 4-bit and a 2-bit base field (decision D3). -/
theorem test_beq_taken : ∃ t, step (launch [0x40, 0x23, 0xF0, 0x10] 0 [(2, 7), (3, 7), (15, 0x100)]) = .next t ∧
    t.pc = 0x110 ∧ t.getReg 15 = 0x100 := ⟨_, rfl, by decide⟩
/-- The row that tells apart a successor at 4 and at 2 (decision D5). -/
theorem test_beq_not_taken : ∃ t, step (launch [0x40, 0x01, 0x10, 0x00] 0 [(0, 1), (1, 2)]) = .next t ∧
    t.pc = 4 := ⟨_, rfl, by decide⟩

theorem test_ldl : ∃ t, step (launch [0xC0, 0xF3, 0xED, 0xFE] 0 [(3, 0xDEADBEEF), (15, 9)]) = .next t ∧
    t.getReg 3 = 0xDEADFEED ∧ t.getReg 15 = 9 ∧ t.pc = 4 := ⟨_, rfl, by decide⟩
/-- No sign extension. -/
theorem test_ldl_unsigned : ∃ t, step (launch [0xC0, 0x00, 0xFF, 0xFF] 0 []) = .next t ∧
    t.getReg 0 = 0x0000FFFF := ⟨_, rfl, by decide⟩

theorem test_ldh : ∃ t, step (launch [0xC1, 0x0F, 0x34, 0x12] 0 [(15, 0x0000ABCD)]) = .next t ∧
    t.getReg 15 = 0x1234ABCD ∧ t.pc = 4 := ⟨_, rfl, by decide⟩
theorem test_ldh_clears : ∃ t, step (launch [0xC1, 0x00, 0x00, 0x00] 0 [(0, 0xFFFFFFFF)]) = .next t ∧
    t.getReg 0 = 0x0000FFFF := ⟨_, rfl, by decide⟩

/-- 2.6, the default mode: the reserved opcode is skipped. -/
theorem test_wml_skipped : ∃ t, step (launch [0xC2, 0x05, 0x34, 0x12] 0 [(5, 7)]) = .next t ∧
    t.pc = 4 ∧ t.status = .running ∧ t.getReg 5 = 7 := ⟨_, rfl, by decide⟩
/-- 2.6, `STRICT_FAULTS`: the stop names the opcode byte. -/
theorem test_wml_strict : ∃ t, step (strict (launch [0xC2, 0x05, 0x34, 0x12] 0 [])) = .next t ∧
    t.status = .invalidOpcode 0xC2 ∧ t.endPc = 0 ∧ t.pc = 0 := ⟨_, rfl, by decide⟩
theorem test_wmh_skipped : ∃ t, step (launch [0xC3, 0x00, 0x00, 0x00] 0 []) = .next t ∧ t.pc = 4 :=
  ⟨_, rfl, by decide⟩
theorem test_wmb_skipped : ∃ t, step (launch [0xC4, 0x00, 0x00, 0x00] 0 []) = .next t ∧ t.pc = 4 :=
  ⟨_, rfl, by decide⟩
theorem test_ldc_skipped : ∃ t, step (launch [0xC5, 0x00, 0x00, 0x00] 0 []) = .next t ∧ t.pc = 4 :=
  ⟨_, rfl, by decide⟩

theorem test_unassigned_regs : ∃ t, step (launch [0x04, 0x12, 0, 0] 0 []) = .next t ∧ t.pc = 2 :=
  ⟨_, rfl, by decide⟩
theorem test_unassigned_regs_strict : ∃ t, step (strict (launch [0x04, 0x12, 0, 0] 0 [])) = .next t ∧
    t.status = .invalidOpcode 0x04 ∧ t.endPc = 0 := ⟨_, rfl, by decide⟩
theorem test_unassigned_formatless : ∃ t, step (launch [0x80, 0xFF, 0, 0] 0 []) = .next t ∧ t.pc = 2 :=
  ⟨_, rfl, by decide⟩
theorem test_unassigned_imm12 : ∃ t, step (launch [0x41, 0, 0, 0] 0 []) = .next t ∧ t.pc = 4 :=
  ⟨_, rfl, by decide⟩
theorem test_unassigned_imm16 : ∃ t, step (launch [0xFF, 0xFF, 0xFF, 0xFF] 0 []) = .next t ∧ t.pc = 4 :=
  ⟨_, rfl, by decide⟩

/-! ## The bounds check and the stops (95_test_vectors.md 2.7) -/

theorem test_bounds_short_memory : ∃ t, step (launch [0, 0, 0] 0 []) = .next t ∧
    t.status = .fetchOutOfBounds ∧ t.endPc = 0 := ⟨_, rfl, by decide⟩
/-- A `HLT` stands at the pc, but four bytes do not: the bounds check comes first (R157). -/
theorem test_bounds_before_hlt : ∃ t, step (launch [0, 0, 0, 0] 2 []) = .next t ∧
    t.status = .fetchOutOfBounds ∧ t.endPc = 2 := ⟨_, rfl, by decide⟩
theorem test_bounds_last_pc : ∃ t, step { State.reset with pc := 0xFFFFFFFF } = .next t ∧
    t.status = .fetchOutOfBounds ∧ t.endPc = 0xFFFFFFFF := ⟨_, rfl, by decide⟩

/-! ## The hook (95_test_vectors.md 2.10) -/

/-- The core sends the address of the instruction just executed and waits. -/
theorem test_hook_sends : ∃ t, step (hooked [.acknowledge 0] (launch [0x01, 0x00, 0, 0] 0 [])) = .next t ∧
    t.channel = some { pending := some 0, closed := false, replies := [.acknowledge 0] } ∧ t.suspended = true :=
  ⟨_, rfl, by decide⟩
/-- `HLT` sends nothing and closes the channel. -/
theorem test_hook_closed : ∃ t, step (hooked [] (launch [0x00, 0x00, 0, 0] 0 [])) = .next t ∧
    t.channel = some { pending := none, closed := true, replies := [] } := ⟨_, rfl, by decide⟩

/-- R168: a close by the observer outside a suspension; not even the `HLT` at the pc is executed. -/
theorem test_hook_closed_by_observer :
    step (hooked [.abort] (launch [0x00, 0x00, 0, 0] 0 [])) = .refused .channelAborted := rfl
/-- R108, R168: a close in the suspension to come; the `NOP` before it is executed and sends its address. -/
theorem test_hook_closed_when_notified :
    ∃ t, step (hooked [.abortWhenNotified] (launch [0x01, 0x00, 0, 0, 0, 0] 0 [])) = .next t ∧
      t.suspended = true ∧ t.pc = 2 ∧ step t = .refused .channelAborted := ⟨_, rfl, by decide, by decide, rfl⟩

/-! ## Memory -/

/-- Writes keep the cells in rising order and replace the value of a listed one. -/
theorem test_memory_canonical :
    Memory.write (Memory.write (Memory.write [] 5 1) 2 2) 5 3 = [(2, 2), (5, 3)] := by decide
theorem test_memory_not_canonical : Memory.wf [(5, 1), (2, 2)] = false ∧ Memory.wf [(2, 1), (2, 2)] = false := by
  decide
theorem test_memory_outside : (launch [0, 0] 0 []).readByte 2 = .error (.addressOutsideMemory 2) := by decide

/-! ## Witnesses

For each statement with hypotheses, inputs that meet them, one for each clause, at a boundary where the clause
has one. -/

theorem test_meets_DecodeEncodeRoundTrip : (Instr.unassigned0407 0x07 0xFF).wellFormed = true ∧
    (Instr.beq 15 15 15 0xFFF).wellFormed = true := by decide

theorem test_meets_EntryPointsRoundTrip :
    formatOf (BitVec.ofNat 8 0x3F) = .regs ∧ formatOf (BitVec.ofNat 8 0x7F) = .imm12 ∧
    formatOf (BitVec.ofNat 8 255) = .imm16 ∧
    formatOf (opcodeField 0x0000F03F) = .regs ∧ formatOf (opcodeField 0xFFD7FE40) = .imm12 ∧
    formatOf (opcodeField 0xFEEDF3C0) = .imm16 := by decide

theorem test_meets_LengthIsTheFlags :
    (∃ i left, decode (0x80 :: [0x00, 0x01]) = .ok (i, left) ∧ left = [0x01]) ∧
    2 ≤ ((0xBF : Byte) :: [0x00]).length ∧ 4 ≤ ((0x40 : Byte) :: [0, 0, 0]).length :=
  ⟨⟨_, _, rfl, rfl⟩, by decide⟩

theorem test_meets_IgnoredFieldsHaveNoEffect :
    (opcodeField 0x00005A00 = opcodeField 0x00000000 ∧ opcodeField 0x00005A00 = 0x00) ∧
    (opcodeField 0x0000FF01 = opcodeField 0x12340001 ∧ opcodeField 0x0000FF01 = 0x01) ∧
    (opcodeField 0x000000C5 = opcodeField 0x123405C5 ∧ recognisedOpcode (opcodeField 0x000000C5) = false) ∧
    (opcodeField 0xFEEDF3C0 = opcodeField 0xFEED03C0 ∧ formatOf (opcodeField 0xFEEDF3C0) = .imm16 ∧
      opcodeField 0xFEEDF3C0 = 0xC0 ∧ dstField 0xFEEDF3C0 = dstField 0xFEED03C0 ∧
      imm16Field 0xFEEDF3C0 = imm16Field 0xFEED03C0) ∧
    (∃ b, b ∈ (emitImm16 0xC0 0x1F 0)[1]?) := ⟨by decide, by decide, by decide, by decide, ⟨0x0F, by decide⟩⟩

theorem test_meets_SignAndMagnitudeOffset :
    (0x7FF : BitVec 12).toNat < 2048 ∧ 2048 ≤ (0x800 : BitVec 12).toNat := by decide

theorem test_meets_OffsetsAreEncodedBySoftware :
    offsetField (-2047) = 0xFFF ∧ offsetField (-1) = 0x801 ∧ offsetField 0 = 0x000 ∧ offsetField 2047 = 0x7FF ∧
    (1 : Int) ≤ 2047 := by decide

theorem test_meets_WindowIsReadLittleEndian :
    (launch [0xC0, 0x03, 0xED, 0xFE] 0 []).memRead (launch [0xC0, 0x03, 0xED, 0xFE] 0 []).pc.toNat 4 =
      .ok 0xFEED03C0 := by decide

theorem test_meets_RegsTextForm : formatOf (mnemonicOpcode .add) = .regs ∧
    tokens "ADD".toList = [mnemonicName .add] ∧
    tokens "ADD ra, rp".toList = mnemonicName .add :: [regName 0, regName 15] ∧
    tokens "ADD ra rq".toList = mnemonicName .add :: [['r', 'a'], ['r', 'q']] ∧ regOf ['r', 'q'] = none ∧
    tokens "ADD ra".toList = mnemonicName .add :: [['r', 'a']] := by decide

theorem test_meets_Imm12TextForm : formatOf (mnemonicOpcode .beq) = .imm12 ∧
    tokens "BEQ ra rb rc".toList = mnemonicName .beq :: [['r', 'a'], ['r', 'b'], ['r', 'c']] ∧
    tokens "BEQ ra rb rc FFF".toList =
      mnemonicName .beq :: [regName 0, regName 1, regName 2, ['F', 'F', 'F']] ∧
    hexLiteral 0xFFF ['F', 'F', 'F'] = some 4095 ∧ hexLiteral 0xFFF ['1', '0', '0', '0'] = none ∧
    tokens "BEQ ra rx rc zz".toList =
      mnemonicName .beq :: [['r', 'a'], ['r', 'x'], ['r', 'c'], ['z', 'z']] ∧ regOf ['r', 'x'] = none := by decide

theorem test_meets_Imm16TextForm : formatOf (mnemonicOpcode .ldl) = .imm16 ∧
    tokens "LDL rd".toList = mnemonicName .ldl :: [['r', 'd']] ∧
    tokens "LDL rd FFFF".toList = mnemonicName .ldl :: [regName 3, ['F', 'F', 'F', 'F']] ∧
    hexLiteral 0xFFFF ['F', 'F', 'F', 'F'] = some 65535 ∧
    hexLiteral 0xFFFF ['1', '0', '0', '0', '0'] = none ∧
    tokens "LDL r3 0".toList = mnemonicName .ldl :: [['r', '3'], ['0']] ∧ regOf ['r', '3'] = none := by decide

theorem test_meets_MnemonicIsCheckedFirst :
    (tokens "FOO ra".toList = ['F', 'O', 'O'] :: [['r', 'a']] ∧ ∀ m, ['F', 'O', 'O'] ≠ mnemonicName m) ∧
    (tokens "ADD ra rq".toList = mnemonicName .add :: [['r', 'a'], ['r', 'q']] ∧
      tokens "XOR ra rq".toList = mnemonicName .xor :: [['r', 'a'], ['r', 'q']] ∧
      formatFlag (mnemonicOpcode .add) = formatFlag (mnemonicOpcode .xor)) :=
  ⟨⟨by decide, fun m => by cases m <;> decide⟩, by decide⟩

theorem test_meets_LinesStopAtTheFirstFailure :
    ["NOP".toList, "ADD ra rb".toList].map (encodeLine false) = [[0x01, 0x00], [0x03, 0x01]].map .ok ∧
    encodeLine false "BAD".toList = .error .unknownInstruction := by decide

/-- Two bytes at the pc that decode to an instruction, and the four of the window, at the last pc in bounds. -/
theorem test_meets_StepRunsTheDecodedInstruction :
    (launch [0, 0x03, 0x10, 0, 0] 1 []).status = .running ∧
    (launch [0, 0x03, 0x10, 0, 0] 1 []).aborted = false ∧
    (launch [0, 0x03, 0x10, 0, 0] 1 []).suspended = false ∧
    (launch [0, 0x03, 0x10, 0, 0] 1 []).pc.toNat + 4 = (launch [0, 0x03, 0x10, 0, 0] 1 []).memLen.val ∧
    (launch [0, 0x03, 0x10, 0, 0] 1 []).readBytes 1 2 = .ok [0x03, 0x10] ∧
    decode [0x03, 0x10] = .ok (.add 1 0, []) ∧
    (launch [0, 0x03, 0x10, 0, 0] 1 []).readBytes 1 4 = .ok [0x03, 0x10, 0, 0] :=
  ⟨by decide, by decide, by decide, by decide, by decide, by decide, by decide⟩

/-- The placed instruction of a state whose own pc leaves no room for it, and of one whose observer is
closing the channel. -/
theorem test_meets_PlacedInstructionRuns :
    decodeTableWord 32 0xFEED03C0 = some (.ldl 3 0xFEED) ∧
    ∃ t, step (({ State.reset with pc := 0xFFFFFFFE, memLen := 0 } : State).withFetchWord 32 0xFEED03C0) = .next t ∧
      t.getReg 3 = 0x0000FEED ∧ t.pc = 4 ∧
      ∃ u, step ((hooked [.abort] State.reset).withFetchWord 32 0xFEED03C0) = .next u ∧ u.getReg 3 = 0x0000FEED :=
  ⟨by decide, _, rfl, by decide, by decide, _, rfl, by decide⟩

theorem test_meets_opcode_clauses :
    opcodeField 0x00005A00 = 0x00 ∧ opcodeField 0x0000FF01 = 0x01 ∧ opcodeField 0x00001202 = 0x02 ∧
    opcodeField 0x0000F003 = 0x03 ∧ opcodeField 0x02280140 = 0x40 ∧ opcodeField 0xFEED03C0 = 0xC0 ∧
    opcodeField 0x12340FC1 = 0xC1 ∧ opcodeField 0x123405C2 = 0xC2 ∧ opcodeField 0x000000C3 = 0xC3 ∧
    opcodeField 0x000000C4 = 0xC4 ∧ opcodeField 0x000000C5 = 0xC5 := by decide

/-- A source that holds 0, and twice the same `XOR`, which restores the destination. -/
theorem test_meets_XorWritesItsDestination :
    (launch [] 0 [(1, 0x12345678)]).getReg 0 = 0 ∧ (0 : Reg) ≠ 1 ∧
    ∃ t, exec (.xor 0 1) (launch [] 0 [(0, 0xFFFFFFFF), (1, 0x00FF00FF)]) = .next t ∧ t.getReg 1 = 0xFF00FF00 ∧
      ∃ u, exec (.xor 0 1) t = .next u ∧ u.getReg 1 = 0x00FF00FF :=
  ⟨by decide, by decide, _, rfl, by decide, _, rfl, by decide⟩

/-- `ADD ra rb` then `ADD rb ra` (S3). -/
theorem test_meets_AddWrapsIntoItsDestination :
    (launch [] 0 [(1, 0xABCD)]).getReg 0 = 0 ∧ (0 : Reg) ≠ 1 ∧
    ∃ t, exec (.add 0 1) (launch [] 0 [(0, 5), (1, 7)]) = .next t ∧ t.getReg 1 = 12 ∧
      ∃ u, exec (.add 1 0) t = .next u ∧ u.getReg 0 = 17 :=
  ⟨by decide, by decide, _, rfl, by decide, _, rfl, by decide⟩

/-- The two ends of the target: `0 - 2` and `0xFFFFFFFF + 2` wrap (95_test_vectors.md 2.4); and not taken. -/
theorem test_meets_BeqBranchesOnEquality :
    (∃ t, exec (.beq 0 0 0 0x802) (launch [] 0 []) = .next t ∧ t.pc = 0xFFFFFFFE) ∧
    (∃ t, exec (.beq 0 0 1 0x002) (launch [] 0 [(1, 0xFFFFFFFF)]) = .next t ∧ t.pc = 1) ∧
    (launch [] 0 [(1, 2)]).getReg 0 ≠ (launch [] 0 [(1, 2)]).getReg 1 :=
  ⟨⟨_, rfl, by decide⟩, ⟨_, rfl, by decide⟩, by decide⟩

/-- Another state with the same register value, such as one after an instruction that does not write it. -/
theorem test_meets_HalfWordsCompose :
    ∃ t, exec (.ldl 7 0xCAFE) (launch [] 0 [(7, 0x12345678)]) = .next t ∧
      (launch [] 6 [(7, 0x1234CAFE)]).getReg 7 = t.getReg 7 := ⟨_, rfl, by decide⟩

theorem test_meets_ReservedOpcodesHaveNoEffect :
    (launch [] 0 []).strictFaults = false ∧ (strict (launch [] 0 [])).strictFaults = true ∧
    tokens "WML rd 0".toList = mnemonicName .wml :: [['r', 'd'], ['0']] ∧
    tokens "LDC".toList = [mnemonicName .ldc] := by decide

theorem test_meets_UnassignedOpcodesAreSkipped :
    inBlock 0x04 0x07 0x04 = true ∧ inBlock 0x08 0x0F 0x08 = true ∧ inBlock 0x10 0x1F 0x1F = true ∧
    inBlock 0x20 0x3F 0x3F = true ∧ inBlock 0x41 0x41 0x41 = true ∧ inBlock 0x42 0x43 0x43 = true ∧
    inBlock 0x44 0x47 0x44 = true ∧ inBlock 0x48 0x4F 0x48 = true ∧ inBlock 0x50 0x5F 0x5F = true ∧
    inBlock 0x60 0x7F 0x7F = true ∧ inBlock 0x80 0xBF 0x80 = true ∧ inBlock 0xC6 0xC7 0xC6 = true ∧
    inBlock 0xC8 0xCF 0xCF = true ∧ inBlock 0xD0 0xDF 0xD0 = true ∧ inBlock 0xE0 0xFF 0xFF = true := by decide

/-- Four bytes at the pc are in bounds, three are not, and in a Memory of three no pc is. -/
theorem test_meets_BoundsCheckStops :
    (launch [1, 0, 0, 0, 0] 1 []).status = .running ∧ (launch [1, 0, 0, 0, 0] 1 []).aborted = false ∧
    (launch [1, 0, 0, 0, 0] 1 []).suspended = false ∧
    (launch [1, 0, 0, 0, 0] 1 []).pc.toNat + 4 = (launch [1, 0, 0, 0, 0] 1 []).memLen.val ∧
    (launch [1, 0, 0, 0, 0] 2 []).memLen.val < (launch [1, 0, 0, 0, 0] 2 []).pc.toNat + 4 ∧
    (launch [0, 0, 0] 0 []).memLen.val < 4 := by decide

theorem test_meets_StopCauseAndPriority :
    (∃ t, step (launch [0, 0, 0, 0] 1 []) = .next t ∧ statusCode t.status = 2 ∧ t.endPc = 1) ∧
    (∃ t, step (launch [0, 0, 0, 0] 0 []) = .next t ∧ statusCode t.status = 1 ∧ t.endPc = 2) ∧
    (∃ t, step (strict (launch [0xFF, 0, 0, 0] 0 [])) = .next t ∧ statusCode t.status = 3 ∧
      t.status = .invalidOpcode 0xFF) ∧
    (∃ t, step (strict (launch [0x01, 0, 0, 0] 0 [])) = .next t ∧ statusCode t.status = 0) :=
  ⟨⟨_, rfl, by decide⟩, ⟨_, rfl, by decide⟩, ⟨_, rfl, by decide⟩, ⟨_, rfl, by decide⟩⟩

/-- Two steps still running, then the `HLT`. -/
theorem test_meets_RunEndsExactlyWhen :
    ∃ t, Host.Core.run Sys2Proof.core 2 (launch [1, 0, 2, 0, 0, 0, 0, 0] 0 []) = .next t ∧ t.status = .running ∧
      ∃ u, step t = .next u ∧ u.status = .halted := ⟨_, rfl, by decide, _, rfl, by decide⟩

theorem test_meets_StopsArePrecise :
    (launch [0, 0, 0, 0] 0 [(3, 9)]).status = .running ∧
    ∃ t, step (launch [0, 0, 0, 0] 0 [(3, 9)]) = .next t ∧ t.status ≠ .running ∧ t.getReg 3 = 9 :=
  ⟨by decide, _, rfl, by decide⟩

theorem test_meets_StoppedCoreStaysStopped :
    ({ State.reset with status := .invalidOpcode 0xC2 } : State).status ≠ .running := by decide

theorem test_meets_EndPcIsWrittenAtTheStopOnly :
    ∃ t, step (launch [0, 0, 0, 0] 0 []) = .next t ∧
      t.endPc ≠ (launch [0, 0, 0, 0] 0 []).endPc ∧ t.status ≠ (launch [0, 0, 0, 0] 0 []).status :=
  ⟨_, rfl, by decide⟩

/-- A taken branch onto itself in the middle of a run. -/
theorem test_meets_NothingWritesMemory :
    ∃ t, Host.Core.run Sys2Proof.core 3 (launch [0x40, 0, 0, 0] 0 []) = .next t ∧ t.pc = 0 ∧ t.status = .running :=
  ⟨_, rfl, by decide⟩

/-- A step that changes a register; and another register file with the same operands. -/
theorem test_meets_OnlyDestinationsAreWritten :
    (∃ t, step (launch [0x03, 0x10, 0, 0] 0 [(1, 1)]) = .next t ∧
      t.getReg 0 ≠ (launch [0x03, 0x10, 0, 0] 0 [(1, 1)]).getReg 0) ∧
    (Instr.nop 0 0).row ≠ .xor ∧ (Instr.nop 0 0).row ≠ .add ∧ (Instr.nop 0 0).row ≠ .ldl ∧
      (Instr.nop 0 0).row ≠ .ldh ∧
    (∀ r ∈ (Instr.add 1 0).sources,
      ({ launch [] 0 [(1, 1)] with regs := (launch [] 0 [(1, 1), (2, 5)]).regs } : State).getReg r =
        (launch [] 0 [(1, 1)]).getReg r) ∧
    (launch [] 0 [(1, 1), (2, 5)]).regs ≠ (launch [] 0 [(1, 1)]).regs :=
  ⟨⟨_, rfl, by decide⟩, by decide, by decide, by decide, by decide, by decide, by decide⟩

/-- No instruction (a stop by the bounds check), the length advance, a taken branch, a halt. -/
theorem test_meets_OnlyBeqLeavesTheSequence :
    (∃ t, step (launch [0, 0, 0] 0 []) = .next t ∧ (launch [0, 0, 0] 0 []).nextInstr = none) ∧
    (∃ t, step (launch [1, 0, 0, 0] 0 []) = .next t ∧ t.status = .running ∧
      (launch [1, 0, 0, 0] 0 []).nextInstr = some (.nop 0 0)) ∧
    (∃ t, step (launch [0x40, 0x00, 0x08, 0x00] 0 [(0, 4)]) = .next t ∧ t.status = .running ∧
      (launch [0x40, 0x00, 0x08, 0x00] 0 [(0, 4)]).nextInstr = some (.beq 0 0 0 0x800) ∧ t.pc = 4) ∧
    (∃ t, step (launch [0, 0, 0, 0] 0 []) = .next t ∧ t.status = .halted ∧
      (launch [0, 0, 0, 0] 0 []).status = .running) :=
  ⟨⟨_, rfl, by decide⟩, ⟨_, rfl, by decide⟩, ⟨_, rfl, by decide⟩, ⟨_, rfl, by decide⟩⟩

/-- The last four bytes of a Memory of 2^32 bytes, and the last four of a smaller one. -/
theorem test_meets_CursorWrapsOnlyAtTheTop :
    ({ State.reset with pc := 0xFFFFFFFC } : State).fetchInBounds = true ∧
    ({ State.reset with pc := 0xFFFFFFFC } : State).memLen.val = 2 ^ 32 ∧
    (launch [0, 0, 0, 0, 0] 1 []).fetchInBounds = true := by decide

/-- A branch to an even target, taken. -/
theorem test_meets_EvenPcStaysEven :
    (launch [0x40, 0x00, 0x08, 0x02] 0 []).pc.toNat % 2 = 0 ∧
    (∃ t, step (launch [0x40, 0x00, 0x08, 0x02] 0 []) = .next t ∧ t.pc = 0xFFFFFFFE) ∧
    (launch [0x40, 0x00, 0x08, 0x02] 0 []).nextInstr = some (.beq 0 0 0 0x802) ∧
    (branchTarget ((launch [0x40, 0x00, 0x08, 0x02] 0 []).getReg 0) 0x802).toNat % 2 = 0 :=
  ⟨by decide, ⟨_, rfl, by decide⟩, by decide, by decide⟩

/-- A byte inside Memory that nobody has given a value, an instruction, and a pc out of bounds. -/
theorem test_meets_FetchNeverLeavesMemory :
    step State.reset = .fault (.unwrittenByte 0) ∧
    (launch [0x02, 0x12, 0, 0] 0 []).nextInstr = some (.xor 1 2) ∧
    (launch [0, 0, 0] 0 []).status = .running ∧ (launch [0, 0, 0] 0 []).aborted = false ∧
    (launch [0, 0, 0] 0 []).suspended = false ∧
    (launch [0, 0, 0] 0 []).memLen.val < (launch [0, 0, 0] 0 []).pc.toNat + 4 :=
  ⟨rfl, by decide, by decide, by decide, by decide, by decide⟩

/-- A legal state whose step stops, and a legal run. -/
theorem test_meets_LegalStatesStayLegal : (hooked [] (launch [0, 0, 0, 0] 0 [])).Legal ∧
    ∃ t, step (hooked [] (launch [0, 0, 0, 0] 0 [])) = .next t ∧ t.status = .halted ∧
      Host.Core.run Sys2Proof.core 1 (hooked [] (launch [0, 0, 0, 0] 0 [])) = .next t :=
  ⟨⟨by decide, by decide, by decide, by decide, fun c h => by
      have h' : some (⟨none, false, []⟩ : Channel) = some c := h
      injection h' with h'; subst h'; decide⟩, _, rfl, by decide, rfl⟩

/-- A context left by an earlier run, started again. -/
theorem test_meets_StartedRunIsLegal :
    Memory.wf (launch [1, 0, 0, 0] 0 []).mem = true ∧
    ∀ c ∈ (launch [1, 0, 0, 0] 0 []).mem, c.1 < (launch [1, 0, 0, 0] 0 []).memLen.val := by decide

/-- A suspended core, with what its observer may do next. -/
def waiting (replies : List Reply) : State :=
  { launch [1, 0, 0, 0, 0, 0] 2 [] with
    channel := some { pending := some 0, closed := false, replies := replies } }

/-- An instruction that goes on, one that stops, a suspended core that takes its answer, a stopped core, and a
core without a channel. -/
theorem test_meets_ExecutedStepsNotify :
    (hooked [] (launch [1, 0, 0, 0] 0 [])).channel = some ⟨none, false, []⟩ ∧
    (hooked [] (launch [1, 0, 0, 0] 0 [])).status = .running ∧
    (hooked [] (launch [1, 0, 0, 0] 0 [])).suspended = false ∧
    (∃ t, step (hooked [] (launch [1, 0, 0, 0] 0 [])) = .next t ∧ t.status = .running) ∧
    (∃ t, step (hooked [] (launch [0, 0, 0, 0] 0 [])) = .next t ∧ t.status ≠ .running) ∧
    (∃ t, step (waiting [.acknowledge 7]) = .next t ∧
      t.channel = some { pending := none, closed := false, replies := [] }) ∧
    (∃ t, step { waiting [] with status := .halted } = .next t) ∧
    (launch [1, 0, 0, 0] 0 []).channel = none ∧
    (∃ t, Host.Core.run Sys2Proof.core 1 (launch [1, 0, 0, 0] 0 []) = .next t) :=
  ⟨by decide, by decide, by decide, ⟨_, rfl, by decide⟩, ⟨_, rfl, by decide⟩, ⟨_, rfl, by decide⟩, ⟨_, rfl⟩,
    by decide, ⟨_, rfl⟩⟩

theorem test_meets_SuspendedCoreWaits :
    (waiting []).status = .running ∧ (waiting []).suspended = true ∧
    step (waiting []) = .next (waiting []) ∧
    (∃ t, step (waiting [.acknowledge 7]) = .next t ∧ t.suspended = false ∧ t.pc = 2) ∧
    step (waiting [.abortWhenNotified]) = .refused .channelAborted ∧
    step (waiting [.abort]) = .refused .channelAborted :=
  ⟨by decide, by decide, rfl, ⟨_, rfl, by decide⟩, rfl, rfl⟩

/-- An observer that answers twice, for one step of the run without the hook. -/
theorem test_meets_HookChangesNoResult :
    (∃ t, Host.Core.run Sys2Proof.core 2
      (hooked [.acknowledge 0, .acknowledge 1] (launch [1, 0, 0, 0] 0 [])) = .next t ∧ t.pc = 2) ∧
    (∀ c, (hooked [.acknowledge 0, .acknowledge 1] (launch [1, 0, 0, 0] 0 [])).channel = some c →
      (∀ r ∈ c.replies, ∃ v, r = .acknowledge v) ∧ 1 + 1 ≤ c.replies.length) ∧
    (∃ u, Host.Core.run Sys2Proof.core 1
      (hooked [.acknowledge 0, .acknowledge 1] (launch [1, 0, 0, 0] 0 [])).detach = .next u ∧ u.pc = 2) :=
  ⟨⟨_, rfl, by decide⟩, fun c h => by
      have h' : some (⟨none, false, [.acknowledge 0, .acknowledge 1]⟩ : Channel) = some c := h
      injection h' with h'; subst h'; simp, ⟨_, rfl, by decide⟩⟩

theorem test_meets_LoadedRunNeverSticks :
    (hooked [.acknowledge 0] (launch [1, 0, 0, 0] 0 [])).FullyLoaded ∧
    (hooked [.acknowledge 0] (launch [1, 0, 0, 0] 0 [])).DutifulObserver := by
  refine ⟨fun a h => ?_, fun c h => ?_⟩
  · have h4 : a < 4 := h
    interval_cases a <;> exact ⟨_, rfl⟩
  · have h' : some (⟨none, false, [.acknowledge 0]⟩ : Channel) = some c := h
    injection h' with h'
    subst h'
    simp

theorem test_meets_CleanRunsIgnoreTheFaultMode :
    OnlyRecognised 1 (launch [1, 0, 0, 0] 0 []) ∧
    ∃ t, Host.Core.run Sys2Proof.core 1 (launch [1, 0, 0, 0] 0 []) = .next t ∧ t.pc = 2 :=
  ⟨⟨fun i h => by
      have h' : some (Instr.nop 0 0) = some i := h
      injection h' with h'; subst h'; decide, fun _ _ => trivial⟩, _, rfl, by decide⟩

/-- No separator before the word and none after it, and some of each kind. -/
theorem test_meets_TokensAreSplitAtSpaceTabComma :
    (∀ c ∈ [' ', '\t', ','], c = ' ' ∨ c = '\t' ∨ c = ',') ∧
    (∀ c ∈ ['H', 'L', 'T'], c ≠ ' ' ∧ c ≠ '\t' ∧ c ≠ ',') ∧
    (∀ c, ([',', 'r', 'a'] : Text).head? = some c → c = ' ' ∨ c = '\t' ∨ c = ',') ∧
    tokens "NOP".toList = [mnemonicName .nop] :=
  ⟨by simp, by simp, fun _ h => .inr (.inr (Option.some.inj h).symm), by decide⟩

/-- Both ways to be refused; and a stopped core whose observer closes the channel is not. -/
theorem test_meets_ObserverClosingTheChannelIsRefused :
    step (hooked [.abort] (launch [1, 0, 0, 0] 0 [])) = .refused .channelAborted ∧
    step (waiting [.abortWhenNotified]) = .refused .channelAborted ∧
    ∃ t, step { waiting [.abort] with status := .halted } = .next t := ⟨rfl, rfl, _, rfl⟩

end Sys2Proof.Tests
end

section
/-! The value `MemRead` gives and the window of the bytes it read: one byte order (R10, R40, R42). -/

namespace Sys2Proof.Machine

/-- `MemRead` is the little-endian value of the bytes it read. -/
theorem State.memRead_ok_iff {s : State} {a n v : Nat} :
    s.memRead a n = .ok v ↔ ∃ bs, s.readBytes a n = .ok bs ∧ littleEndian bs = v := by
  unfold State.memRead
  cases s.readBytes a n <;> simp

/-- Four bytes read together are the bytes at four consecutive addresses. -/
theorem State.readBytes_four {s : State} {a : Nat} {bs : List Byte} (h : s.readBytes a 4 = .ok bs) :
    ∃ b0 b1 b2 b3 : Byte, bs = [b0, b1, b2, b3] ∧ s.readByte a = .ok b0 ∧ s.readByte (a + 1) = .ok b1 ∧
      s.readByte (a + 2) = .ok b2 ∧ s.readByte (a + 3) = .ok b3 := by
  obtain ⟨hlen, hread⟩ := State.readBytes_ok h
  obtain ⟨b0, b1, b2, b3, rfl⟩ := List.length_eq_four.1 hlen
  exact ⟨b0, b1, b2, b3, rfl, hread 0 (by simp), hread 1 (by simp), hread 2 (by simp), hread 3 (by simp)⟩

/-- The low byte joins a window shifted past it without a carry, so `|||` is addition. -/
theorem windowOf_cons (b : Byte) (bs : List Byte) :
    windowOf (b :: bs) = windowOf bs * 256#32 + b.setWidth 32 := by
  have disjoint : windowOf bs <<< 8 &&& b.setWidth 32 = 0 := by
    ext i hi
    simp
    grind
  rw [windowOf, ← BitVec.add_eq_or_of_and_eq_zero _ _ disjoint, BitVec.shiftLeft_eq_mul_twoPow]
  rfl

/-- The window of a list of bytes is their little-endian value, cut to 32 bits. -/
theorem windowOf_eq_ofNat_littleEndian (bs : List Byte) :
    windowOf bs = BitVec.ofNat 32 (littleEndian bs) := by
  induction bs with
  | nil => rfl
  | cons b bs ih =>
    rw [windowOf_cons, ih, littleEndian, Nat.add_comm, Nat.mul_comm, BitVec.ofNat_add, BitVec.ofNat_mul,
      BitVec.ofNat_toNat]

/-- Settles O10: the value is the little-endian sum of the four bytes read, so as a window it is the window
of those bytes, whose fields are the bytes in order. -/
theorem windowIsReadLittleEndian : Obligations.WindowIsReadLittleEndian := by
  intro s v h
  obtain ⟨bs, hbs, rfl⟩ := State.memRead_ok_iff.1 h
  obtain ⟨b0, b1, b2, b3, rfl, h0, h1, h2, h3⟩ := State.readBytes_four hbs
  rw [← windowOf_eq_ofNat_littleEndian]
  refine ⟨b0, b1, b2, b3, h0, h1, h2, h3, ?_, by simp, by simp, by simp, by simp, ?_, rfl⟩
  · simp only [littleEndian]
    omega
  · rw [imm16Field_eq, byte3Field_windowOf, byte2Field_windowOf]

end Sys2Proof.Machine
end

section
/-! The next instruction: which states have one, what the step then does, and what a step does without one. -/

namespace Sys2Proof.Machine

variable {s t : State} {i : Instr}

theorem State.nextInstr_eq_some_iff : s.nextInstr = some i ↔
    s.status = .running ∧ s.aborted = false ∧ s.suspended = false ∧ s.fetchInBounds = true ∧
      s.fetch = .ok i := by
  unfold State.nextInstr State.ready
  cases s.fetch <;> simp [and_assoc]

/-- The step of a core that has a next instruction is that instruction. -/
theorem step_of_nextInstr (hi : s.nextInstr = some i) : step s = exec i s := by
  obtain ⟨hs, ha, hp, hb, hf⟩ := State.nextInstr_eq_some_iff.1 hi
  exact step_of_fetch hs ha hp hb hf

/-- A step that runs no instruction changes at most the channel, or is the stop by the bounds check. -/
theorem step_of_nextInstr_none (h : step s = .next t) (hi : s.nextInstr = none) :
    t.regs = s.regs ∧ t.pc = s.pc ∧ (t.status = s.status ∨ t.status = .fetchOutOfBounds) := by
  rcases step_cases h with ⟨-, rfl⟩ | ⟨-, -, -, ⟨_, -, -, rfl⟩ | ⟨_, _, _, -, -, rfl⟩⟩ |
    ⟨-, -, -, -, rfl⟩ | ⟨hs, ha, hp, hb, i, hf, -⟩
  · exact ⟨rfl, rfl, .inl rfl⟩
  · exact ⟨rfl, rfl, .inl rfl⟩
  · exact ⟨rfl, rfl, .inl rfl⟩
  · exact ⟨rfl, rfl, .inr rfl⟩
  · rw [State.nextInstr_eq_some_iff.2 ⟨hs, ha, hp, hb, hf⟩] at hi
    cases hi

end Sys2Proof.Machine
end

section
/-! Legal states: each operation that a step is made of keeps them legal. -/

namespace Sys2Proof.Machine

variable {s t : State} {i : Instr}

@[simp] theorem State.suspended_stop (cause : Status) : (s.stop cause).suspended = s.suspended := by
  cases hc : s.channel <;> simp [State.suspended, hc]

theorem State.Legal.setReg (h : s.Legal) (r : Reg) (v : Word) : (s.setReg r v).Legal :=
  ⟨h.memCanonical, h.cellsInside, h.endRecorded, h.stoppedNotSuspended, h.closedAtStop⟩

/-- Going on: `END_PC` and the end of the channel are owed by a stopped run only. -/
theorem State.Legal.commit (h : s.Legal) (hs : s.status = .running) (cursor : Word) :
    (s.commit cursor).Legal where
  memCanonical := h.memCanonical
  cellsInside := h.cellsInside
  endRecorded := absurd hs
  stoppedNotSuspended := absurd hs
  closedAtStop := by
    intro d hd
    obtain ⟨c, hc, rfl⟩ := Option.map_eq_some_iff.1 hd
    exact h.closedAtStop c hc

/-- Stopping at any pc: the stop saves that pc, and a core that is not suspended leaves nothing pending. -/
theorem State.Legal.stopAt (h : s.Legal) (hp : s.suspended = false) {cause : Status}
    (hcause : cause ≠ .running) (pc : Word) : (State.stop { s with pc := pc } cause).Legal where
  memCanonical := h.memCanonical
  cellsInside := h.cellsInside
  endRecorded _ := rfl
  stoppedNotSuspended _ := (State.suspended_stop cause).trans hp
  closedAtStop := by
    intro d hd
    obtain ⟨c, -, rfl⟩ := Option.map_eq_some_iff.1 hd
    simp [hcause]

theorem State.Legal.acknowledged (h : s.Legal) (hs : s.status = .running) {c : Channel}
    (hc : s.channel = some c) (rest : List Reply) :
    ({ s with channel := some { c with pending := none, replies := rest } } : State).Legal where
  memCanonical := h.memCanonical
  cellsInside := h.cellsInside
  endRecorded := absurd hs
  stoppedNotSuspended := absurd hs
  closedAtStop := by
    rintro d ⟨⟩
    exact h.closedAtStop c hc

theorem State.Legal.exec (h : s.Legal) (hs : s.status = .running) (hp : s.suspended = false)
    (he : exec i s = .next t) : t.Legal := by
  rcases exec_shape he with ⟨r, v, -, cursor, rfl⟩ | ⟨-, cursor, rfl⟩ | ⟨-, cause, hcause, pc, rfl⟩
  · exact (h.setReg r v).commit hs cursor
  · exact h.commit hs cursor
  · exact h.stopAt hp hcause pc

theorem State.Legal.step (h : s.Legal) (hst : step s = .next t) : t.Legal := by
  rcases step_cases hst with ⟨-, rfl⟩ | ⟨hs, -, -, ⟨_, -, -, rfl⟩ | ⟨c, _, rest, hc, -, rfl⟩⟩ |
    ⟨-, -, hp, -, rfl⟩ | ⟨hs, -, hp, -, i, -, he⟩
  · exact h
  · exact h
  · exact h.acknowledged hs hc rest
  · exact h.stopAt hp (by decide) s.pc
  · exact h.exec hs hp he

/-- Settles O44: each shape of a step keeps the invariant, and so does a run. -/
theorem legalStatesStayLegal : Obligations.LegalStatesStayLegal :=
  ⟨fun _ _ h hst => h.step hst, fun _ _ _ h hrun => run_keeps (fun _ _ hu => hu.step) h hrun⟩

end Sys2Proof.Machine
end

section
/-! What a step writes: `END_PC` and `STATUS` at a stop, and the destination register. -/

namespace Sys2Proof.Machine

variable {s t : State} {i : Instr}

/-- An instruction leaves `END_PC` and `STATUS` as they are, or it stops the run and saves the pc. -/
theorem exec_endPc_status (h : exec i s = .next t) :
    (t.endPc = s.endPc ∧ t.status = s.status) ∨ (t.status ≠ .running ∧ t.endPc = t.pc) := by
  rcases exec_shape h with ⟨_, _, -, _, rfl⟩ | ⟨-, _, rfl⟩ | ⟨-, _, hcause, _, rfl⟩
  · exact .inl ⟨rfl, rfl⟩
  · exact .inl ⟨rfl, rfl⟩
  · exact .inr ⟨hcause, rfl⟩

/-- Settles O37: `END_PC` and `STATUS` are written by the bounds stop and by an instruction that stops. -/
theorem endPcIsWrittenAtTheStopOnly : Obligations.EndPcIsWrittenAtTheStopOnly := by
  intro s t h hchange
  have unchanged : ¬ (t.endPc = s.endPc ∧ t.status = s.status) := by
    rintro ⟨he, hs⟩
    exact hchange.elim (absurd he) (absurd hs)
  rcases step_cases h with ⟨-, rfl⟩ | ⟨-, -, -, ⟨_, -, -, rfl⟩ | ⟨_, _, _, -, -, rfl⟩⟩ |
    ⟨hs, -, -, -, rfl⟩ | ⟨hs, -, -, -, i, -, he⟩
  · exact absurd ⟨rfl, rfl⟩ unchanged
  · exact absurd ⟨rfl, rfl⟩ unchanged
  · exact absurd ⟨rfl, rfl⟩ unchanged
  · exact ⟨hs, by simp, rfl⟩
  · obtain hsame | hstop := exec_endPc_status he
    · exact absurd hsame unchanged
    · exact ⟨hs, hstop⟩

/-- An instruction changes no register but its destination. -/
theorem exec_getReg_of_ne (h : exec i s = .next t) {r : Reg} (hr : i.destination ≠ some r) :
    t.getReg r = s.getReg r := by
  rcases exec_shape h with ⟨d, v, hd, _, rfl⟩ | ⟨-, _, rfl⟩ | ⟨-, _, -, _, rfl⟩
  · have : r ≠ d := by
      rintro rfl
      exact hr hd
    simp [this]
  · rfl
  · rfl

/-- A step that changes a register runs an instruction with that destination. -/
theorem step_changes_destination (h : step s = .next t) {r : Reg} (hr : t.getReg r ≠ s.getReg r) :
    ∃ i, s.nextInstr = some i ∧ i.destination = some r := by
  cases hi : s.nextInstr with
  | none =>
    obtain ⟨hregs, -, -⟩ := step_of_nextInstr_none h hi
    exact absurd (by simp [State.getReg, hregs]) hr
  | some i =>
    rw [step_of_nextInstr hi] at h
    exact ⟨i, rfl, by_contra fun hd => hr (exec_getReg_of_ne h hd)⟩

theorem destination_eq_none_of_row (hx : i.row ≠ .xor) (ha : i.row ≠ .add) (hl : i.row ≠ .ldl)
    (hh : i.row ≠ .ldh) : i.destination = none := by
  cases i with
  | xor src dst => exact absurd rfl hx
  | add src dst => exact absurd rfl ha
  | ldl reg imm16 => exact absurd rfl hl
  | ldh reg imm16 => exact absurd rfl hh
  | _ => rfl

@[simp] theorem State.noDispatch_pc (opcode : Byte) : (s.noDispatch opcode).pc =
    if s.strictFaults then s.pc else s.pc + BitVec.ofNat 32 (lengthOf opcode) := by
  unfold State.noDispatch
  split <;> rfl

/-- The written value and the pc depend on no register but the sources. -/
theorem exec_congr_sources {regs : Vector Word 16} {u : State}
    (hsrc : ∀ r ∈ i.sources, ({ s with regs := regs } : State).getReg r = s.getReg r)
    (ht : exec i s = .next t) (hu : exec i { s with regs := regs } = .next u) :
    u.pc = t.pc ∧ ∀ d, i.destination = some d → u.getReg d = t.getReg d := by
  cases i with
  | xor src dst | add src dst =>
    cases ht
    cases hu
    refine ⟨rfl, ?_⟩
    rintro d ⟨⟩
    simp [hsrc src (by simp [Instr.sources]), hsrc dst (by simp [Instr.sources])]
  | ldl reg imm16 | ldh reg imm16 =>
    cases ht
    cases hu
    refine ⟨rfl, ?_⟩
    rintro d ⟨⟩
    simp [hsrc reg (by simp [Instr.sources])]
  | beq a b base imm =>
    cases ht
    cases hu
    refine ⟨?_, nofun⟩
    simp [hsrc a (by simp [Instr.sources]), hsrc b (by simp [Instr.sources]),
      hsrc base (by simp [Instr.sources])]
  | hlt _ _ | nop _ _ =>
    cases ht
    cases hu
    exact ⟨rfl, nofun⟩
  | _ =>
    cases ht
    cases hu
    exact ⟨by simp, nofun⟩

/-- Settles O39: frame, table of R23 and dependence on the sources, each a lemma above. -/
theorem onlyDestinationsAreWritten : Obligations.OnlyDestinationsAreWritten :=
  ⟨fun _ _ _ h hr => step_changes_destination h hr, fun _ _ => ⟨rfl, rfl⟩, fun _ _ => ⟨rfl, rfl⟩,
    fun _ => destination_eq_none_of_row, fun _ _ _ _ _ => exec_congr_sources⟩

end Sys2Proof.Machine
end

section
/-! The pc: the opcode byte that gives the length advance, and what an instruction makes of the pc. -/

namespace Sys2Proof

/-- The opcode byte of a row that fixes all its bits. -/
theorem eq_rowMatch_of_classify {opcode : Byte} {row : Row} (h : classify opcode = row)
    (hmask : rowMask row = 0xFF) : opcode = rowMatch row := by
  have hm := (classify_iff_rowMatches opcode row).1 h
  rw [rowMatches, hmask, beq_iff_eq] at hm
  exact (BitVec.and_allOnes (x := opcode)).symm.trans hm

/-- A decoded instruction's encoding starts with the opcode byte it was decoded from. -/
theorem head?_encode_decodeWindow (w : Word) :
    (encode (decodeWindow w)).head? = some (opcodeField w) := by
  have named : ∀ row, classify (opcodeField w) = row → rowMask row = 0xFF →
      some (rowMatch row) = some (opcodeField w) :=
    fun row h hmask => congrArg some (eq_rowMatch_of_classify h hmask).symm
  unfold decodeWindow
  cases hrow : classify (opcodeField w) with
  | hlt | nop | xor | add | beq | ldl | ldh | wml | wmh | wmb | ldc => exact named _ hrow rfl
  | _ => rfl

end Sys2Proof

namespace Sys2Proof.Machine

variable {s t : State} {i : Instr} {op : Byte}

/-- The opcode byte at the pc is the first byte of the next instruction's encoding. -/
theorem State.readByte_pc_of_fetch (h : s.fetch = .ok i) :
    ∃ op, s.readByte s.pc.toNat = .ok op ∧ (encode i).head? = some op := by
  obtain ⟨op, tail, hop, -, rfl⟩ := State.fetch_ok_iff.1 h
  exact ⟨op, hop, by rw [head?_encode_decodeWindow, opcodeField_windowOf]⟩

/-- What an instruction with opcode byte `op` makes of the pc and of `STATUS`: the only four ways (R106,
R120, R130, R153). -/
inductive PcEffect (i : Instr) (op : Byte) (s t : State) : Prop where
  | advance (status : t.status = s.status) (pc : t.pc = s.pc + BitVec.ofNat 32 (lengthOf op))
  | branch (a b base : Reg) (imm : BitVec 12) (isBeq : i = .beq a b base imm)
      (taken : s.getReg a = s.getReg b) (status : t.status = s.status)
      (pc : t.pc = branchTarget (s.getReg base) imm)
  | halt (status : t.status = .halted) (pc : t.pc = s.pc + 2)
  | stopInPlace (status : t.status = .invalidOpcode op) (pc : t.pc = s.pc)

/-- An opcode with no dispatch case is skipped by its length, or it stops the run in place. -/
theorem State.noDispatch_pcEffect (i : Instr) (s : State) (op : Byte) :
    PcEffect i op s (s.noDispatch op) := by
  unfold State.noDispatch
  split
  · exact .stopInPlace rfl rfl
  · exact .advance rfl rfl

theorem exec_pcEffect (h : exec i s = .next t) (hop : (encode i).head? = some op) :
    PcEffect i op s t := by
  cases i with
  | hlt _ _ =>
    cases h
    exact .halt rfl rfl
  | beq a b base imm =>
    cases h
    cases hop
    by_cases hab : s.getReg a = s.getReg b
    · exact .branch a b base imm rfl hab rfl (by simp [branchTaken, hab])
    · have hlen : lengthOf (mnemonicOpcode .beq) = 4 := rfl
      exact .advance rfl (by simp [branchTaken, hab, hlen])
  | nop _ _ | xor _ _ | add _ _ | ldl _ _ | ldh _ _ =>
    cases h
    cases hop
    exact .advance rfl rfl
  | _ =>
    cases h
    cases hop
    exact State.noDispatch_pcEffect _ s _

theorem step_pcEffect (h : step s = .next t) (hi : s.nextInstr = some i) :
    ∃ op, s.readByte s.pc.toNat = .ok op ∧ PcEffect i op s t := by
  obtain ⟨-, -, -, -, hf⟩ := State.nextInstr_eq_some_iff.1 hi
  obtain ⟨op, hread, hop⟩ := State.readByte_pc_of_fetch hf
  rw [step_of_nextInstr hi] at h
  exact ⟨op, hread, exec_pcEffect h hop⟩

theorem step_pc_of_running (h : step s = .next t) (hi : s.nextInstr = some i) (ht : t.status = .running) :
    (∃ op, s.readByte s.pc.toNat = .ok op ∧ t.pc = s.pc + BitVec.ofNat 32 (lengthOf op)) ∨
      ∃ a b base imm, i = .beq a b base imm ∧ s.getReg a = s.getReg b ∧
        t.pc = branchTarget (s.getReg base) imm := by
  obtain ⟨op, hread, heff⟩ := step_pcEffect h hi
  cases heff with
  | advance _ hpc => exact .inl ⟨op, hread, hpc⟩
  | branch a b base imm hbeq htaken _ hpc => exact .inr ⟨a, b, base, imm, hbeq, htaken, hpc⟩
  | halt hstatus _ => simp [hstatus] at ht
  | stopInPlace hstatus _ => simp [hstatus] at ht

theorem step_pc_of_halted (h : step s = .next t) (hs : s.status = .running) (ht : t.status = .halted) :
    t.pc = s.pc + 2 := by
  cases hi : s.nextInstr with
  | none =>
    obtain ⟨-, -, hstatus | hstatus⟩ := step_of_nextInstr_none h hi <;> simp [hs, ht] at hstatus
  | some i =>
    obtain ⟨op, -, heff⟩ := step_pcEffect h hi
    cases heff with
    | halt _ hpc => exact hpc
    | advance hstatus _ => simp [hs, ht] at hstatus
    | branch _ _ _ _ _ _ hstatus _ => simp [hs, ht] at hstatus
    | stopInPlace hstatus _ => simp [ht] at hstatus

/-- Settles O40: the pc's four ways, sorted by whether an instruction ran and by `STATUS` after it. -/
theorem onlyBeqLeavesTheSequence : Obligations.OnlyBeqLeavesTheSequence := by
  intro s t h
  refine ⟨fun hi => ?_, fun _ hi ht => step_pc_of_running h hi ht, fun ht hs => step_pc_of_halted h hs ht⟩
  obtain ⟨-, hpc, -⟩ := step_of_nextInstr_none h hi
  exact hpc

/-- An even pc stays even when it advances by a length, also where it wraps. -/
theorem even_pc_add {pc : Word} (hpc : pc.toNat % 2 = 0) {len : Nat} (hlen : len = 2 ∨ len = 4) :
    (pc + BitVec.ofNat 32 len).toNat % 2 = 0 := by
  rw [BitVec.toNat_add, BitVec.toNat_ofNat]
  omega

/-- Settles O42: every length is even, and the other ways leave the pc or are the branch of the premise. -/
theorem evenPcStaysEven : Obligations.EvenPcStaysEven := by
  intro s t heven h htarget
  cases hi : s.nextInstr with
  | none =>
    obtain ⟨-, hpc, -⟩ := step_of_nextInstr_none h hi
    rwa [hpc]
  | some i =>
    obtain ⟨op, -, heff⟩ := step_pcEffect h hi
    cases heff with
    | advance _ hpc => exact hpc ▸ even_pc_add heven (lengthOf_cases op)
    | branch a b base imm hbeq htaken _ hpc => exact hpc ▸ htarget a b base imm (hbeq ▸ hi) htaken
    | halt _ hpc => exact hpc ▸ even_pc_add heven (.inl rfl)
    | stopInPlace _ hpc => rwa [hpc]

/-- Settles O41: the bounds keep the pc at most 2^32 - 4, so only `pc + 4` can reach 2^32. -/
theorem cursorWrapsOnlyAtTheTop : Obligations.CursorWrapsOnlyAtTheTop := by
  intro s h
  have hbounds : s.pc.toNat + 4 ≤ s.memLen.val := of_decide_eq_true h
  have hlen : s.memLen.val < 4294967297 := s.memLen.isLt
  refine ⟨by bv_omega, ?_⟩
  by_cases htop : s.pc = 0xFFFFFFFC
  · have hpc : s.pc.toNat = 4294967292 := by
      rw [htop]
      rfl
    exact .inr ⟨by omega, htop, by rw [htop]; rfl⟩
  · exact .inl (by bv_omega)

end Sys2Proof.Machine
end

section
/-! The reset state as the start of a run (R39, R175). -/

namespace Sys2Proof.Machine

/-- Settles O46: `INIT_PC` is the pc at reset, and there is no channel for a start to open. -/
theorem resetIsTheStartOfARun : Obligations.ResetIsTheStartOfARun :=
  ⟨rfl, rfl, rfl, rfl, rfl⟩

end Sys2Proof.Machine
end

section
/-! Reading from the pc: what the bytes there make a fetch give (R43, R102 to R104), and where it can fault (R44). -/

namespace Sys2Proof

/-- A list that decodes with nothing left over is an opcode byte and the bytes its length asks for. -/
theorem decode_eq_ok_nil {bytes : List Byte} {i : Instr} (h : decode bytes = .ok (i, [])) :
    ∃ opcode tail, bytes = opcode :: tail ∧ tail.length = lengthOf opcode - 1 ∧
      i = decodeWindow (windowOf (opcode :: tail)) := by
  cases bytes with
  | nil => cases h
  | cons opcode tail =>
    rw [decode] at h
    split at h
    · cases h
    · next henough =>
      simp only [Result.ok.injEq, Prod.mk.injEq] at h
      obtain ⟨rfl, hrest⟩ := h
      have hle : tail.length ≤ lengthOf opcode - 1 := List.drop_eq_nil_iff.1 hrest
      exact ⟨opcode, tail, rfl, by omega, by rw [List.take_of_length_le hle]⟩

end Sys2Proof

namespace Sys2Proof.Machine

variable {s : State} {i : Instr}

/-- Reading one byte more reads the byte at the address and the rest from the next one. -/
theorem State.readBytes_succ_eq_ok_cons_iff {a n : Nat} {b : Byte} {bs : List Byte} :
    s.readBytes a (n + 1) = .ok (b :: bs) ↔ s.readByte a = .ok b ∧ s.readBytes (a + 1) n = .ok bs := by
  rw [State.readBytes]
  cases s.readByte a with
  | error f => simp
  | ok c => cases s.readBytes (a + 1) n <;> simp

theorem State.fetch_of_decode {bytes : List Byte}
    (hread : s.readBytes s.pc.toNat bytes.length = .ok bytes) (h : decode bytes = .ok (i, [])) :
    s.fetch = .ok i := by
  obtain ⟨opcode, tail, rfl, hlen, hi⟩ := decode_eq_ok_nil h
  obtain ⟨hop, htail⟩ := State.readBytes_succ_eq_ok_cons_iff.1 hread
  exact State.fetch_ok_iff.2 ⟨opcode, tail, hop, hlen ▸ htail, hi⟩

/-- A fetch gives what the four bytes at the pc give as a window, also where it reads only two of them. -/
theorem State.fetch_of_window {bytes : List Byte} (hread : s.readBytes s.pc.toNat 4 = .ok bytes) :
    s.fetch = .ok (decodeWindow (windowOf bytes)) := by
  obtain ⟨b0, b1, b2, b3, rfl, h0, h1, -, -⟩ := State.readBytes_four hread
  obtain ⟨-, htail⟩ := State.readBytes_succ_eq_ok_cons_iff.1 hread
  rcases lengthOf_cases b0 with hlen | hlen
  · have hone : s.readBytes (s.pc.toNat + 1) 1 = .ok [b1] :=
      State.readBytes_succ_eq_ok_cons_iff.2 ⟨h1, rfl⟩
    exact State.fetch_ok_iff.2 ⟨b0, [b1], h0, by rwa [hlen], decodeWindow_two b0 b1 b2 b3 hlen⟩
  · exact State.fetch_ok_iff.2 ⟨b0, [b1, b2, b3], h0, by rwa [hlen], rfl⟩

/-- Settles O20: either way the bytes at the pc give the fetch its answer, and the step runs that. -/
theorem stepRunsTheDecodedInstruction : Obligations.StepRunsTheDecodedInstruction := by
  intro s hs ha hp hbounds
  have hb : s.fetchInBounds = true := decide_eq_true hbounds
  exact ⟨fun _ _ hread h => step_of_fetch hs ha hp hb (State.fetch_of_decode hread h),
    fun _ hread => step_of_fetch hs ha hp hb (State.fetch_of_window hread)⟩

/-- Inside the bounds none of the four addresses is past Memory, so a fetch faults for a missing value only. -/
theorem State.fetch_error_inBounds {f : Fault} (hb : s.fetchInBounds = true) (h : s.fetch = .error f) :
    ∃ a, f = .unwrittenByte a ∧ s.pc.toNat ≤ a ∧ a < s.pc.toNat + 4 ∧ a < s.memLen.val ∧
      s.mem.byteAt a = none := by
  have hbounds : s.pc.toNat + 4 ≤ s.memLen.val := of_decide_eq_true hb
  obtain ⟨k, hk, hread⟩ := State.fetch_error h
  rcases State.readByte_error hread with ⟨hlt, hnone, hf⟩ | ⟨hpast, -⟩
  · exact ⟨s.pc.toNat + k, hf, by omega, by omega, hlt, hnone⟩
  · omega

theorem step_fault_unwrittenByte {f : Fault} (h : step s = .fault f) :
    ∃ a, f = .unwrittenByte a ∧ s.pc.toNat ≤ a ∧ a < s.pc.toNat + 4 ∧ a < s.memLen.val ∧
      s.mem.byteAt a = none := by
  obtain ⟨-, -, -, hb, hf⟩ := step_fault h
  exact State.fetch_error_inBounds hb hf

/-- Settles O43: a fetch comes only after the bounds check, which covers all that it reads. -/
theorem fetchNeverLeavesMemory : Obligations.FetchNeverLeavesMemory := by
  refine ⟨fun s f h => step_fault_unwrittenByte h, fun s a h => ?_, fun s i hi => ?_,
    fun s hs ha hp hpast => ?_⟩
  · obtain ⟨_, hf, -⟩ := step_fault_unwrittenByte h
    cases hf
  · obtain ⟨-, -, -, hb, -⟩ := State.nextInstr_eq_some_iff.1 hi
    exact of_decide_eq_true hb
  · have hb : s.fetchInBounds = false := decide_eq_false (by omega)
    exact ⟨_, step_of_outOfBounds hs ha hp hb, by simp⟩

end Sys2Proof.Machine
end

section
/-! What no operation of a step touches: Memory and the launch inputs (R7, R32, R47). -/

namespace Sys2Proof.Machine

variable {s t u : State} {i : Instr}

/-- The bytes read follow from the cells and `MEMLEN`. -/
theorem State.SameContext.of_fields (hmem : t.mem = s.mem) (hlen : t.memLen = s.memLen)
    (hinit : t.initPc = s.initPc) (hstrict : t.strictFaults = s.strictFaults)
    (hhook : t.channel.isSome = s.channel.isSome) : s.SameContext t :=
  ⟨State.readByte_congr s t hmem hlen, hmem, hlen, hinit, hstrict, hhook⟩

theorem State.SameContext.refl (s : State) : s.SameContext s :=
  .of_fields rfl rfl rfl rfl rfl

theorem State.SameContext.trans (h : s.SameContext t) (h' : t.SameContext u) : s.SameContext u :=
  .of_fields (h'.mem.trans h.mem) (h'.memLen.trans h.memLen) (h'.initPc.trans h.initPc)
    (h'.strictFaults.trans h.strictFaults) (h'.hook.trans h.hook)

theorem State.sameContext_setReg (s : State) (r : Reg) (v : Word) : s.SameContext (s.setReg r v) :=
  .of_fields rfl rfl rfl rfl rfl

theorem State.sameContext_commit (s : State) (cursor : Word) : s.SameContext (s.commit cursor) :=
  .of_fields rfl rfl rfl rfl Option.isSome_map

/-- A stop at any pc. -/
theorem State.sameContext_stopAt (s : State) (pc : Word) (cause : Status) :
    s.SameContext (State.stop { s with pc := pc } cause) :=
  .of_fields rfl rfl rfl rfl Option.isSome_map

theorem exec_sameContext (h : exec i s = .next t) : s.SameContext t := by
  rcases exec_shape h with ⟨r, v, -, cursor, rfl⟩ | ⟨-, cursor, rfl⟩ | ⟨-, cause, -, pc, rfl⟩
  · exact (s.sameContext_setReg r v).trans (State.sameContext_commit _ cursor)
  · exact s.sameContext_commit cursor
  · exact s.sameContext_stopAt pc cause

theorem step_sameContext (h : step s = .next t) : s.SameContext t := by
  rcases step_cases h with ⟨-, rfl⟩ | ⟨-, -, -, ⟨_, -, -, rfl⟩ | ⟨c, _, _, hc, -, rfl⟩⟩ |
    ⟨-, -, -, -, rfl⟩ | ⟨-, -, -, -, i, -, he⟩
  · exact .refl _
  · exact .refl _
  · exact .of_fields rfl rfl rfl rfl (by simp [hc])
  · exact s.sameContext_stopAt s.pc _
  · exact exec_sameContext he

/-- Settles O38: each step keeps the context of the state the run began with. -/
theorem nothingWritesMemory : Obligations.NothingWritesMemory :=
  fun _ s _ hrun => run_keeps (fun _ _ hu hstep => hu.trans (step_sameContext hstep)) (.refl s) hrun

end Sys2Proof.Machine
end

section
/-! The opcode map and the decoder: one row for each opcode byte (R72, R74), a well-formed instruction for each
window (R76), and back from an instruction's bytes to the instruction (R93). -/

namespace Sys2Proof

/-- A block's first and last byte are the row's match with the free bits all 0 and all 1, so lying in the block
is matching the row. -/
theorem inBlock_iff_classify (row : Row) (op : Byte) :
    inBlock (rowMatch row) (rowMatch row ||| ~~~rowMask row) op = true ↔ classify op = row := by
  have hblock : ∀ op, inBlock (rowMatch row) (rowMatch row ||| ~~~rowMask row) op = rowMatches op row := by
    cases row <;> decide
  rw [hblock, classify_iff_rowMatches]

theorem classify_rowMatch (row : Row) : classify (rowMatch row) = row := by
  cases row <;> rfl

theorem classify_eq_iff {row : Row} (hmask : rowMask row = 0xFF) (op : Byte) :
    classify op = row ↔ op = rowMatch row :=
  ⟨fun h => eq_rowMatch_of_classify h hmask, fun h => h ▸ classify_rowMatch row⟩

/-- The row that a well-formed instruction's first byte selects is the instruction's own. -/
theorem classify_head_encode {i : Instr} {op : Byte} (hwf : i.wellFormed = true)
    (hop : (encode i).head? = some op) : classify op = i.row := by
  cases i with
  | hlt | nop | xor | add | beq | ldl | ldh | wml | wmh | wmb | ldc =>
    cases hop
    rfl
  | _ =>
    cases hop
    dsimp only [Instr.row]
    exact (inBlock_iff_classify _ op).1 hwf

theorem row_decodeWindow (w : Word) : (decodeWindow w).row = classify (opcodeField w) := by
  unfold decodeWindow
  cases classify (opcodeField w) <;> rfl

theorem wellFormed_decodeWindow (w : Word) : (decodeWindow w).wellFormed = true := by
  have block : ∀ row, classify (opcodeField w) = row →
      inBlock (rowMatch row) (rowMatch row ||| ~~~rowMask row) (opcodeField w) = true :=
    fun row => (inBlock_iff_classify row _).2
  unfold decodeWindow
  cases hrow : classify (opcodeField w) with
  | hlt | nop | xor | add | beq | ldl | ldh | wml | wmh | wmb | ldc => rfl
  | _ => exact block _ hrow

/-! ### Encodings -/

/-- The lengths of all instructions' encodings, from the law of each constructor. -/
theorem encode_eq_cons : ∀ {i : Instr}, i.wellFormed = true →
    ∃ op tail, encode i = op :: tail ∧ (encode i).length = lengthOf op
  | .hlt .., h => Laws.EncodedLength.hlt _ _ h
  | .nop .., h => Laws.EncodedLength.nop _ _ h
  | .xor .., h => Laws.EncodedLength.xor _ _ h
  | .add .., h => Laws.EncodedLength.add _ _ h
  | .beq .., h => Laws.EncodedLength.beq _ _ _ _ h
  | .ldl .., h => Laws.EncodedLength.ldl _ _ h
  | .ldh .., h => Laws.EncodedLength.ldh _ _ h
  | .wml .., h => Laws.EncodedLength.wml _ _ h
  | .wmh .., h => Laws.EncodedLength.wmh _ _ h
  | .wmb .., h => Laws.EncodedLength.wmb _ _ h
  | .ldc .., h => Laws.EncodedLength.ldc _ _ h
  | .unassigned0407 .., h => Laws.EncodedLength.unassigned0407 _ _ h
  | .unassigned080F .., h => Laws.EncodedLength.unassigned080F _ _ h
  | .unassigned101F .., h => Laws.EncodedLength.unassigned101F _ _ h
  | .unassigned203F .., h => Laws.EncodedLength.unassigned203F _ _ h
  | .unassigned4141 .., h => Laws.EncodedLength.unassigned4141 _ _ _ _ h
  | .unassigned4243 .., h => Laws.EncodedLength.unassigned4243 _ _ _ _ h
  | .unassigned4447 .., h => Laws.EncodedLength.unassigned4447 _ _ _ _ h
  | .unassigned484F .., h => Laws.EncodedLength.unassigned484F _ _ _ _ h
  | .unassigned505F .., h => Laws.EncodedLength.unassigned505F _ _ _ _ h
  | .unassigned607F .., h => Laws.EncodedLength.unassigned607F _ _ _ _ h
  | .unassigned80BF .., h => Laws.EncodedLength.unassigned80BF _ _ h
  | .unassignedC6C7 .., h => Laws.EncodedLength.unassignedC6C7 _ _ _ _ h
  | .unassignedC8CF .., h => Laws.EncodedLength.unassignedC8CF _ _ _ _ h
  | .unassignedD0DF .., h => Laws.EncodedLength.unassignedD0DF _ _ _ _ h
  | .unassignedE0FF .., h => Laws.EncodedLength.unassignedE0FF _ _ _ _ h

/-! The fields that the decoder reads in the window of packed fields, whatever bytes follow. -/

section PackedFields

variable (op : Byte) (rest : List Byte)

@[simp] theorem opcodeField_packRegs (src dst : Reg) :
    opcodeField (windowOf (packRegs op src dst ++ rest)) = op := by
  simp [packRegs]

@[simp] theorem srcField_packRegs (src dst : Reg) :
    srcField (windowOf (packRegs op src dst ++ rest)) = src := by
  simp [packRegs, srcField_eq]

@[simp] theorem dstField_packRegs (src dst : Reg) :
    dstField (windowOf (packRegs op src dst ++ rest)) = dst := by
  simp [packRegs, dstField_eq]

variable (a b base : Reg) (imm : BitVec 12)

@[simp] theorem opcodeField_packImm12 :
    opcodeField (windowOf (packImm12 op a b base imm ++ rest)) = op := by
  simp [packImm12]

@[simp] theorem srcField_packImm12 :
    srcField (windowOf (packImm12 op a b base imm ++ rest)) = a := by
  simp [packImm12, srcField_eq]

@[simp] theorem dstField_packImm12 :
    dstField (windowOf (packImm12 op a b base imm ++ rest)) = b := by
  simp [packImm12, dstField_eq]

@[simp] theorem baseField_packImm12 :
    baseField (windowOf (packImm12 op a b base imm ++ rest)) = base := by
  simp [packImm12, baseField_eq]

@[simp] theorem imm12Field_packImm12 :
    imm12Field (windowOf (packImm12 op a b base imm ++ rest)) = imm := by
  simp [packImm12, imm12Field_eq]

variable (reg : Reg) (imm16 : BitVec 16)

@[simp] theorem opcodeField_packImm16 :
    opcodeField (windowOf (packImm16 op reg imm16 ++ rest)) = op := by
  simp [packImm16]

@[simp] theorem dstField_packImm16 :
    dstField (windowOf (packImm16 op reg imm16 ++ rest)) = reg := by
  simp [packImm16, dstField_eq]

@[simp] theorem imm16Field_packImm16 :
    imm16Field (windowOf (packImm16 op reg imm16 ++ rest)) = imm16 := by
  simp [packImm16, imm16Field_eq]

end PackedFields

/-- The row is the instruction's own, and its fields are read from where the encoder put them. -/
theorem decodeWindow_windowOf_encode {i : Instr} (hwf : i.wellFormed = true) (rest : List Byte) :
    decodeWindow (windowOf (encode i ++ rest)) = i := by
  obtain ⟨op, tail, hi, -⟩ := encode_eq_cons hwf
  have hrow : classify (opcodeField (windowOf (encode i ++ rest))) = i.row := by
    rw [hi, List.cons_append, opcodeField_windowOf]
    exact classify_head_encode hwf (by rw [hi]; rfl)
  unfold decodeWindow
  rw [hrow]
  cases i <;> simp [Instr.row, encode]

/-- Settles O1: the encoding is as long as its first byte says, and its window decodes to the instruction. -/
theorem decodeEncodeRoundTrip : Obligations.DecodeEncodeRoundTrip := by
  intro i rest hwf
  obtain ⟨op, tail, hi, hlen⟩ := encode_eq_cons hwf
  have htail : tail.length = lengthOf op - 1 := by
    rw [← hlen, hi, List.length_cons, Nat.add_sub_cancel]
  have hdecode : decodeWindow (windowOf (op :: tail)) = i := by
    simpa [hi] using decodeWindow_windowOf_encode hwf []
  rw [hi, decode_append op tail rest htail, hdecode]

/-! ### Windows and lists of bytes -/

/-- Decoding a window's four bytes as a list. -/
theorem decode_fields (w : Word) :
    decode [opcodeField w, byte1Field w, byte2Field w, byte3Field w] =
      .ok (decodeWindow w,
        [opcodeField w, byte1Field w, byte2Field w, byte3Field w].drop (lengthOf (opcodeField w))) := by
  rcases lengthOf_cases (opcodeField w) with hlen | hlen
  · have h := decode_append (opcodeField w) [byte1Field w] [byte2Field w, byte3Field w] (by rw [hlen]; rfl)
    rw [← Machine.decodeWindow_two _ _ (byte2Field w) (byte3Field w) hlen, windowOf_fields] at h
    rw [hlen]
    exact h
  · have h := decode_append (opcodeField w) [byte1Field w, byte2Field w, byte3Field w] [] (by rw [hlen]; rfl)
    rw [windowOf_fields] at h
    rw [hlen]
    exact h

/-- Settles O3: the row of a window is the one that `classify` finds for its opcode byte. -/
theorem decoderTotal : Obligations.DecoderTotal := by
  intro w
  refine ⟨wellFormed_decodeWindow w, fun row => ?_, decode_fields w⟩
  rw [row_decodeWindow, ← classify_iff_rowMatches, eq_comm]

theorem decode_cons_eq_ok_iff {op : Byte} {rest left : List Byte} {i : Instr} :
    decode (op :: rest) = .ok (i, left) ↔ lengthOf op ≤ (op :: rest).length ∧
      i = decodeWindow (windowOf (op :: rest.take (lengthOf op - 1))) ∧
      left = (op :: rest).drop (lengthOf op) := by
  have hdrop : (op :: rest).drop (lengthOf op) = rest.drop (lengthOf op - 1) := by
    rw [← Nat.sub_add_cancel (lengthOf_pos op), List.drop_succ_cons, Nat.add_sub_cancel]
  have hpos := lengthOf_pos op
  rw [decode, hdrop, List.length_cons]
  split
  · simp
    omega
  · simp [eq_comm]
    omega

/-- The length in terms of the top two bits of the first byte (R60, R68). -/
theorem lengthOf_eq_flag : ∀ op : Byte,
    lengthOf op = if op.toNat / 64 = 1 ∨ op.toNat / 64 = 3 then 4 else 2 := by
  decide

/-- Settles O6: decoding takes as many bytes as the flag says, and nothing else can make it fail. -/
theorem lengthIsTheFlags : Obligations.LengthIsTheFlags := by
  intro op rest
  simp only [← lengthOf_eq_flag]
  refine ⟨fun i left h => ?_, fun h => ⟨_, decode_cons_eq_ok_iff.2 ⟨h, rfl, rfl⟩⟩⟩
  obtain ⟨hlen, -, rfl⟩ := decode_cons_eq_ok_iff.1 h
  rw [List.length_drop]
  omega

/-- Settles O4: each word is evaluated. -/
theorem knownWordsDecode : Obligations.KnownWordsDecode :=
  ⟨rfl, rfl, rfl, rfl, rfl, rfl, rfl, rfl, rfl, rfl, rfl⟩

/-- The one row that matches an opcode byte is the one that `classify` finds. -/
theorem length_filter_rowMatches (op : Byte) : (allRows.filter (rowMatches op)).length = 1 := by
  have hrows : rowMatches op = fun row => decide (classify op = row) := by
    funext row
    rw [Bool.eq_iff_iff, decide_eq_true_iff, classify_iff_rowMatches]
  rw [hrows]
  cases classify op <;> rfl

/-- Settles O5: a named row fixes the whole opcode byte, the ranges are a check of the 256 bytes, and the row of
a byte is the only one that matches it. -/
theorem opcodeMapIsAPartition : Obligations.OpcodeMapIsAPartition := by
  refine ⟨fun op => ?_, by decide, length_filter_rowMatches⟩
  exact ⟨classify_eq_iff rfl op, classify_eq_iff rfl op, classify_eq_iff rfl op, classify_eq_iff rfl op,
    classify_eq_iff rfl op, classify_eq_iff rfl op, classify_eq_iff rfl op, classify_eq_iff rfl op,
    classify_eq_iff rfl op, classify_eq_iff rfl op, classify_eq_iff rfl op⟩

end Sys2Proof
end

section
/-! Ignored fields (R75): the instructions whose meaning does not look at them, and the nibble the encoder clears. -/

namespace Sys2Proof

theorem decodeWindow_hlt {w : Word} (h : opcodeField w = 0x00) :
    decodeWindow w = .hlt (srcField w) (dstField w) := by
  unfold decodeWindow
  rw [h]
  rfl

theorem decodeWindow_nop {w : Word} (h : opcodeField w = 0x01) :
    decodeWindow w = .nop (srcField w) (dstField w) := by
  unfold decodeWindow
  rw [h]
  rfl

theorem decodeWindow_ldl {w : Word} (h : opcodeField w = 0xC0) :
    decodeWindow w = .ldl (dstField w) (imm16Field w) := by
  unfold decodeWindow
  rw [h]
  rfl

theorem decodeWindow_ldh {w : Word} (h : opcodeField w = 0xC1) :
    decodeWindow w = .ldh (dstField w) (imm16Field w) := by
  unfold decodeWindow
  rw [h]
  rfl

/-- The interpreter has a dispatch case for the row's instruction (R112). -/
theorem recognised_eq_recognisedOpcode_rowMatch (i : Instr) :
    i.recognised = recognisedOpcode (rowMatch i.row) := by
  cases i <;> rfl

theorem recognisedOpcode_rowMatch_classify : ∀ op : Byte,
    recognisedOpcode (rowMatch (classify op)) = recognisedOpcode op := by
  decide

theorem recognised_decodeWindow (w : Word) :
    (decodeWindow w).recognised = recognisedOpcode (opcodeField w) := by
  rw [recognised_eq_recognisedOpcode_rowMatch, row_decodeWindow, recognisedOpcode_rowMatch_classify]

namespace Machine

/-- An instruction with no dispatch case looks at nothing but its opcode byte (R140, R142). -/
theorem exec_of_not_recognised {i : Instr} {op : Byte} (h : i.recognised = false)
    (hop : (encode i).head? = some op) (s : State) : exec i s = .next (s.noDispatch op) := by
  cases i with
  | hlt | nop | xor | add | beq | ldl | ldh => cases h
  | _ =>
    cases hop
    rfl

theorem exec_decodeWindow_of_not_recognised {w : Word} (h : recognisedOpcode (opcodeField w) = false)
    (s : State) : exec (decodeWindow w) s = .next (s.noDispatch (opcodeField w)) :=
  exec_of_not_recognised ((recognised_decodeWindow w).trans h) (head?_encode_decodeWindow w) s

/-- A mnemonic alone assembles for the REGS format only (R85 to R87). -/
theorem encodeLine_mnemonicName (m : Mnemonic) : encodeLine false (mnemonicName m) =
    if formatOf (mnemonicOpcode m) = .regs then .ok [mnemonicOpcode m, 0] else .error .syntaxError := by
  cases m <;> rfl

/-- Settles O7: such an instruction decodes to one whose meaning ignores the fields, or does not keep them. -/
theorem ignoredFieldsHaveNoEffect : Obligations.IgnoredFieldsHaveNoEffect := by
  refine ⟨fun w w' s hop hkind => ?_, fun w w' hop _ hkind hdst himm => ?_, fun w => decodeWindow_hlt,
    fun w => decodeWindow_nop, encodeLine_mnemonicName, fun op reg value b hb => ?_⟩
  · rcases hkind with h | h | h
    · rw [decodeWindow_hlt h, decodeWindow_hlt (hop ▸ h)]
      rfl
    · rw [decodeWindow_nop h, decodeWindow_nop (hop ▸ h)]
      rfl
    · rw [exec_decodeWindow_of_not_recognised h, exec_decodeWindow_of_not_recognised (hop ▸ h), hop]
  · rcases hkind with h | h
    · rw [decodeWindow_ldl h, decodeWindow_ldl (hop ▸ h), hdst, himm]
    · rw [decodeWindow_ldh h, decodeWindow_ldh (hop ▸ h), hdst, himm]
  · cases hb
    exact high_nibble_append 0 _

end Machine

end Sys2Proof
end

section
/-! The direct entry points (R78 to R82): their bytes as numbers, and the round trip with the window's fields
(R93). -/

namespace Sys2Proof

/-! ### Bits as numbers -/

theorem toNat_append_eq_add {m n : Nat} (x : BitVec m) (y : BitVec n) :
    (x ++ y).toNat = 2 ^ n * x.toNat + y.toNat := by
  rw [BitVec.toNat_append, ← Nat.shiftLeft_add_eq_or_of_lt y.isLt, Nat.shiftLeft_eq, Nat.mul_comm]

/-- Bits `s` to `s + n - 1` as a quotient and a remainder. -/
theorem toNat_extractLsb'_eq_div_mod {m : Nat} (s n : Nat) (x : BitVec m) :
    (x.extractLsb' s n).toNat = x.toNat / 2 ^ s % 2 ^ n := by
  rw [BitVec.extractLsb'_toNat, Nat.shiftRight_eq_div_pow]

/-- Cutting an integer to `n` bits is the remainder by `2 ^ n`, for a negative one too. -/
theorem toNat_ofInt_eq_emod (n : Nat) (x : Int) : ((BitVec.ofInt n x).toNat : Int) = x % 2 ^ n := by
  rw [BitVec.toNat_ofInt, Int.toNat_of_nonneg (Int.emod_nonneg x (by positivity))]
  norm_num

/-- Two fields of four bits that share a byte, as numbers. -/
theorem toNat_nibbles (x y : Int) :
    (((BitVec.ofInt 4 x ++ BitVec.ofInt 4 y : Byte).toNat : Nat) : Int) = 16 * (x % 16) + y % 16 := by
  rw [toNat_append_eq_add]
  push_cast
  rw [toNat_ofInt_eq_emod, toNat_ofInt_eq_emod]
  rfl

/-- Bits `s` to `s + n - 1` of a cut integer, when the cut keeps them. -/
theorem extractLsb'_ofInt {m s n : Nat} (h : s + n ≤ m) (x : Int) :
    (BitVec.ofInt m x).extractLsb' s n = BitVec.ofInt n (x / 2 ^ s) := by
  obtain ⟨k, rfl⟩ := Nat.exists_eq_add_of_le h
  have hsplit : x % 2 ^ (s + n + k) = x + 2 ^ s * (2 ^ n * (2 ^ k * -(x / 2 ^ (s + n + k)))) := by
    rw [Int.emod_def]
    ring
  apply BitVec.eq_of_toNat_eq
  zify
  rw [toNat_ofInt_eq_emod, BitVec.extractLsb'_toNat, Nat.shiftRight_eq_div_pow]
  push_cast
  rw [toNat_ofInt_eq_emod, hsplit, Int.add_mul_ediv_left _ _ (by positivity), Int.add_mul_emod_self_left]

theorem emitImm12_eq (op a b dst offset : Int) : emitImm12 op a b dst offset =
    [BitVec.ofInt 8 op, BitVec.ofInt 4 a ++ BitVec.ofInt 4 b,
      BitVec.ofInt 4 dst ++ BitVec.ofInt 4 (offset / 256), BitVec.ofInt 8 offset] := by
  simp [emitImm12, packImm12, extractLsb'_ofInt]

theorem emitImm16_eq (op dst value : Int) : emitImm16 op dst value =
    [BitVec.ofInt 8 op, BitVec.ofInt 4 0 ++ BitVec.ofInt 4 dst, BitVec.ofInt 8 value,
      BitVec.ofInt 8 (value / 256)] := by
  simp [emitImm16, packImm16, extractLsb'_ofInt]

/-- Settles O11: every byte is a cut integer or two cut nibbles, and a cut is a remainder. -/
theorem entryPointsTruncate : Obligations.EntryPointsTruncate := by
  have byte : ∀ x : Int, ((BitVec.ofInt 8 x).toNat : Int) = x % 256 := toNat_ofInt_eq_emod 8
  refine ⟨fun opcode src dst => ?_, fun opcode dst value => ?_, fun opcode a b dst offset => ?_⟩
  · simp only [emitRegs, packRegs, List.map_cons, List.map_nil, byte, toNat_nibbles]
  · simp only [emitImm16_eq, List.map_cons, List.map_nil, byte, toNat_nibbles, Int.zero_emod,
      Int.mul_zero, Int.zero_add]
  · simp only [emitImm12_eq, List.map_cons, List.map_nil, byte, toNat_nibbles]

/-! ### Round trip -/

theorem ofInt_natCast_toNat {n : Nat} (x : BitVec n) : BitVec.ofInt n (x.toNat : Int) = x := by
  rw [BitVec.ofInt_natCast, BitVec.ofNat_toNat, BitVec.setWidth_eq]

@[simp] theorem emitRegs_toNat (op : Byte) (src dst : Reg) :
    emitRegs op.toNat src.toNat dst.toNat = packRegs op src dst := by
  simp only [emitRegs, ofInt_natCast_toNat]

@[simp] theorem emitImm12_toNat (op : Byte) (a b base : Reg) (imm : BitVec 12) :
    emitImm12 op.toNat a.toNat b.toNat base.toNat imm.toNat = packImm12 op a b base imm := by
  simp only [emitImm12, ofInt_natCast_toNat]

@[simp] theorem emitImm16_toNat (op : Byte) (reg : Reg) (imm16 : BitVec 16) :
    emitImm16 op.toNat reg.toNat imm16.toNat = packImm16 op reg imm16 := by
  simp only [emitImm16, ofInt_natCast_toNat]

/-! What the encoder makes of the fields of a window: the bytes they were read from. -/

@[simp] theorem append_nibbles (b : Byte) : b.extractLsb' 4 4 ++ b.extractLsb' 0 4 = b :=
  BitVec.extractLsb'_append_extractLsb'

theorem zero_append_low_nibble : ∀ b : Byte, 0#4 ++ b.extractLsb' 0 4 = b &&& 0x0F := by
  decide

@[simp] theorem imm12_high_append (x : BitVec 4) (y : Byte) : (x ++ y : BitVec 12).extractLsb' 8 4 = x :=
  BitVec.extractLsb'_append_eq_left

@[simp] theorem imm12_low_append (x : BitVec 4) (y : Byte) : (x ++ y : BitVec 12).extractLsb' 0 8 = y :=
  BitVec.extractLsb'_append_eq_right

@[simp] theorem imm16_high_append (x y : Byte) : (x ++ y : BitVec 16).extractLsb' 8 8 = x :=
  BitVec.extractLsb'_append_eq_left

@[simp] theorem imm16_low_append (x y : Byte) : (x ++ y : BitVec 16).extractLsb' 0 8 = y :=
  BitVec.extractLsb'_append_eq_right

theorem packRegs_fields (w : Word) :
    packRegs (opcodeField w) (srcField w) (dstField w) = [opcodeField w, byte1Field w] := by
  simp [packRegs, srcField_eq, dstField_eq]

theorem packImm12_fields (w : Word) :
    packImm12 (opcodeField w) (srcField w) (dstField w) (baseField w) (imm12Field w) =
      [opcodeField w, byte1Field w, byte2Field w, byte3Field w] := by
  simp [packImm12, srcField_eq, dstField_eq, baseField_eq, imm12Field_eq]

/-- The `unused` nibble is lost (R93). -/
theorem packImm16_fields (w : Word) : packImm16 (opcodeField w) (dstField w) (imm16Field w) =
    [opcodeField w, byte1Field w &&& 0x0F, byte2Field w, byte3Field w] := by
  simp [packImm16, dstField_eq, imm16Field_eq, zero_append_low_nibble]

/-- Settles O2: the fields of packed fields are those, and the cut leaves arguments in range as they are. -/
theorem entryPointsRoundTrip : Obligations.EntryPointsRoundTrip := by
  refine ⟨fun o src dst rest ho hsrc hdst _ => ?_, fun o a b dst offset rest ho ha hb hdst hoff _ => ?_,
    fun o reg value rest ho hreg hvalue _ => ?_, fun w _ => ?_, fun w _ => ?_, fun w _ => ?_⟩
  · simp [emitRegs, *]
  · simp [emitImm12, *]
  · simp [emitImm16, *]
  · rw [emitRegs_toNat, packRegs_fields]
  · rw [emitImm12_toNat, packImm12_fields]
  · rw [emitImm16_toNat, packImm16_fields]

end Sys2Proof
end

section
/-! The 12-bit immediate as a number: sign and magnitude (R70), and the field for an offset (R71). -/

namespace Sys2Proof.Machine

/-- The offset of a field by its number: bit 11 set makes it minus what is above `0x800`. -/
theorem smag12_eq (f : BitVec 12) :
    smag12 f = if f.toNat < 2048 then (f.toNat : Int) else -((f.toNat : Int) - 2048) := by
  have hmag : (f.extractLsb' 0 11).toNat = f.toNat % 2048 := by
    simp
  have hlt : f.toNat < 4096 := f.isLt
  rw [smag12, hmag, BitVec.msb_eq_decide]
  simp only [decide_eq_true_eq]
  split <;> split <;> omega

/-- The field is the low nibble of byte 2, then byte 3. -/
theorem toNat_imm12Field (w : Word) :
    (imm12Field w).toNat = 256 * (byte2Field w).toNat % 4096 + (byte3Field w).toNat := by
  have h := toNat_append_eq_add ((byte2Field w).extractLsb' 0 4) (byte3Field w)
  rw [toNat_extractLsb'_eq_div_mod] at h
  rw [imm12Field_eq]
  omega

theorem smag12_eq_zero_iff (f : BitVec 12) : smag12 f = 0 ↔ f = 0x000 ∨ f = 0x800 := by
  rw [smag12_eq, BitVec.toNat_eq, BitVec.toNat_eq]
  split <;> simp <;> omega

/-- Two's complement subtracts 4096 where sign and magnitude takes the magnitude's negative. -/
theorem smag12_eq_toInt_iff (f : BitVec 12) : smag12 f = f.toInt ↔ f.toNat < 2048 ∨ f = 0xC00 := by
  have hlt : f.toNat < 4096 := f.isLt
  rw [smag12_eq, BitVec.toInt_eq_toNat_cond, BitVec.toNat_eq]
  split <;> split <;> simp <;> omega

/-- Settles O8: the field's bytes, and the offset read off `smag12_eq`. -/
theorem signAndMagnitudeOffset : Obligations.SignAndMagnitudeOffset := by
  refine ⟨toNat_imm12Field, fun f => ?_⟩
  have hlt : f.toNat < 4096 := f.isLt
  have hoff := smag12_eq f
  refine ⟨fun h => ?_, fun h => ?_, ?_, ?_, smag12_eq_zero_iff f, smag12_eq_toInt_iff f⟩
  · rw [hoff, if_pos h]
  · rw [hoff, if_neg (by omega)]
  · split at hoff <;> omega
  · split at hoff <;> omega

/-- The field of a negative offset: the sign bit lies above the magnitude, so `|||` is addition. -/
theorem toNat_sign_or_magnitude {m : Int} (h0 : 0 ≤ m) (h : m ≤ 2047) :
    ((0x800 ||| BitVec.ofInt 12 m : BitVec 12).toNat : Int) = 2048 + m := by
  have hm := toNat_ofInt_eq_emod 12 m
  have hor : 2048 + (BitVec.ofInt 12 m).toNat = 2048 ||| (BitVec.ofInt 12 m).toNat :=
    Nat.two_pow_add_eq_or_of_lt (i := 11) (by omega) 1
  have htoNat : (0x800 ||| BitVec.ofInt 12 m : BitVec 12).toNat = 2048 ||| (BitVec.ofInt 12 m).toNat := rfl
  omega

theorem toNat_offsetField_of_nonneg {o : Int} (h0 : 0 ≤ o) (h : o ≤ 2047) :
    ((offsetField o).toNat : Int) = o := by
  rw [offsetField, if_pos h0, toNat_ofInt_eq_emod]
  omega

theorem offsetField_of_neg {o : Int} (h : o < 0) : offsetField o = 0x800 ||| BitVec.ofInt 12 (-o) :=
  if_neg (by omega)

theorem toNat_offsetField_of_neg {o : Int} (h0 : o < 0) (h : -2047 ≤ o) :
    ((offsetField o).toNat : Int) = 2048 + -o := by
  rw [offsetField_of_neg h0]
  exact toNat_sign_or_magnitude (by omega) (by omega)

theorem smag12_offsetField {o : Int} (hlow : -2047 ≤ o) (hhigh : o ≤ 2047) :
    smag12 (offsetField o) = o := by
  rw [smag12_eq]
  rcases Int.lt_or_le o 0 with hneg | hnonneg
  · have := toNat_offsetField_of_neg hneg hlow
    rw [if_neg (by omega)]
    omega
  · have := toNat_offsetField_of_nonneg hnonneg hhigh
    rw [if_pos (by omega)]
    omega

/-- The entry point packs a negative integer's two's-complement bits: `-m` becomes the field `4096 - m`. -/
theorem smag12_emitImm12_neg (op a b dst : Int) {m : Int} (h1 : 1 ≤ m) (h : m ≤ 2047) :
    smag12 (imm12Field (windowOf (emitImm12 op a b dst (-m)))) = -(2048 - m) := by
  have hfield : imm12Field (windowOf (emitImm12 op a b dst (-m))) = BitVec.ofInt 12 (-m) := by
    simpa only [emitImm12, List.append_nil] using imm12Field_packImm12 _ [] _ _ _ (BitVec.ofInt 12 (-m))
  have hm := toNat_ofInt_eq_emod 12 (-m)
  rw [hfield, smag12_eq, if_neg (by omega)]
  omega

/-- Settles O9. -/
theorem offsetsAreEncodedBySoftware : Obligations.OffsetsAreEncodedBySoftware :=
  ⟨fun _ hlow hhigh => ⟨smag12_offsetField hlow hhigh,
      fun h0 => toNat_offsetField_of_nonneg h0 hhigh,
      fun h0 => ⟨offsetField_of_neg h0, toNat_offsetField_of_neg h0 hlow⟩⟩,
    fun _ op a b dst h1 h => smag12_emitImm12_neg op a b dst h1 h⟩

end Sys2Proof.Machine
end

section
/-! The assembler's words: the name tables (R77), the tokens of a line (R83) and hexadecimal literals (R88). -/

namespace Sys2Proof.Machine

/-! ### Name tables -/

theorem mnemonicOf_eq_some_iff (t : Text) (m : Mnemonic) : mnemonicOf t = some m ↔ t = mnemonicName m :=
  ⟨fun h => (mnemonicName_of_mnemonicOf h).symm, fun h => h ▸ mnemonicOf_mnemonicName m⟩

theorem regOf_eq_some_iff (t : Text) (r : Reg) : regOf t = some r ↔ t = regName r :=
  ⟨fun h => (regName_of_regOf h).symm, fun h => h ▸ regOf_regName r⟩

/-- A name that is found is a register's. -/
theorem exists_eq_regName {t : Text} (h : regOf t ≠ none) : ∃ r, t = regName r := by
  obtain ⟨r, hr⟩ := Option.ne_none_iff_exists'.1 h
  exact ⟨r, (regOf_eq_some_iff t r).1 hr⟩

theorem mnemonicOfOpcode_mnemonicOpcode (m : Mnemonic) : mnemonicOfOpcode (mnemonicOpcode m) = some m := by
  cases m <;> rfl

/-- A code that is found is the found mnemonic's own. -/
theorem mnemonicOpcode_of_mnemonicOfOpcode {op : Byte} {m : Mnemonic} (h : mnemonicOfOpcode op = some m) :
    mnemonicOpcode m = op := by
  simpa using List.find?_some h

theorem mnemonicOfOpcode_eq_some_iff (op : Byte) (m : Mnemonic) :
    mnemonicOfOpcode op = some m ↔ op = mnemonicOpcode m :=
  ⟨fun h => (mnemonicOpcode_of_mnemonicOfOpcode h).symm, fun h => h ▸ mnemonicOfOpcode_mnemonicOpcode m⟩

/-- Settles O12: each look-up is the inverse of its table, and the tables are written out. -/
theorem nameTablesAreInverse : Obligations.NameTablesAreInverse :=
  ⟨mnemonicOf_eq_some_iff, mnemonicOfOpcode_eq_some_iff, regOf_eq_some_iff, by decide, by decide, by decide⟩

/-! ### Tokens -/

theorem isSeparator_iff {c : Char} : isSeparator c = true ↔ c = ' ' ∨ c = '\t' ∨ c = ',' := by
  simp [isSeparator, or_assoc]

theorem not_isSeparator_iff {c : Char} : isSeparator c = false ↔ c ≠ ' ' ∧ c ≠ '\t' ∧ c ≠ ',' := by
  simp [isSeparator, and_assoc]

/-- A text that splitting a line can give: not empty and without separators (R83, D21). -/
def IsToken (t : Text) : Prop :=
  t ≠ [] ∧ ∀ c ∈ t, isSeparator c = false

/-- Separators before a token are passed over. -/
theorem tokens_separators_append {seps : Text} (h : ∀ c ∈ seps, isSeparator c = true) (rest : Text) :
    tokens (seps ++ rest) = tokens rest := by
  induction seps with
  | nil => rfl
  | cons c cs ih =>
    obtain ⟨hc, hcs⟩ := List.forall_mem_cons.1 h
    rw [← ih hcs, List.cons_append, tokens, tokensFrom, if_pos hc, if_pos rfl, tokens]

/-- The token under way ends at the end of the line and at a separator. -/
theorem tokensFrom_of_ends {word rest : Text} (hword : word ≠ [])
    (hrest : ∀ c, rest.head? = some c → isSeparator c = true) : tokensFrom word rest = word :: tokens rest := by
  cases rest with
  | nil => simp [tokens, tokensFrom, hword]
  | cons c cs => simp [tokens, tokensFrom, hword, hrest c rfl]

theorem tokens_word_append {word rest : Text} (hword : IsToken word)
    (hrest : ∀ c, rest.head? = some c → isSeparator c = true) :
    tokens (word ++ rest) = word :: tokens rest := by
  obtain ⟨hne, hsep⟩ := hword
  rw [tokens, tokensFrom_append [] word rest hsep, List.nil_append, tokensFrom_of_ends hne hrest]

/-- The token under way need not be one yet: it can still be empty. -/
theorem isToken_of_mem_tokensFrom {word line : Text} (hword : ∀ c ∈ word, isSeparator c = false) :
    ∀ t ∈ tokensFrom word line, IsToken t := by
  induction line generalizing word with
  | nil =>
    intro t ht
    rw [tokensFrom] at ht
    split at ht
    · cases ht
    · next hne =>
      obtain rfl := List.mem_singleton.1 ht
      exact ⟨hne, hword⟩
  | cons c cs ih =>
    intro t ht
    rw [tokensFrom] at ht
    split at ht
    · split at ht
      · exact ih (by simp) t ht
      · next hne =>
        obtain rfl | ht := List.mem_cons.1 ht
        · exact ⟨hne, hword⟩
        · exact ih (by simp) t ht
    · next hc =>
      refine ih (fun d hd => ?_) t ht
      obtain hd | hd := List.mem_append.1 hd
      · exact hword d hd
      · rw [List.mem_singleton.1 hd]
        simpa using hc

/-- The operand rules apply to the tokens after a mnemonic (R84). -/
theorem encodeLine_of_tokens {line : Text} {m : Mnemonic} {operands : List Text}
    (h : tokens line = mnemonicName m :: operands) (opt : Bool) :
    encodeLine opt line = assembleOperands opt (mnemonicOpcode m) operands := by
  simp [encodeLine, h]

theorem encodeLine_of_unknown {line name : Text} {operands : List Text} (h : tokens line = name :: operands)
    (hname : ∀ m, name ≠ mnemonicName m) (opt : Bool) : encodeLine opt line = .error .unknownInstruction := by
  have hnone : mnemonicOf name = none :=
    Option.eq_none_iff_forall_ne_some.2 fun m hm => hname m ((mnemonicOf_eq_some_iff name m).1 hm)
  simp [encodeLine, h, hnone]

/-- Settles O52: the laws of `tokens`, with the separators written out. -/
theorem tokensAreSplitAtSpaceTabComma : Obligations.TokensAreSplitAtSpaceTabComma := by
  simp only [Obligations.TokensAreSplitAtSpaceTabComma, ← isSeparator_iff, ← not_isSeparator_iff]
  refine ⟨fun seps hseps => ?_, fun seps word rest hseps hne hword hrest => ?_,
    fun line => isToken_of_mem_tokensFrom (by simp), fun opt line m operands h => encodeLine_of_tokens h opt⟩
  · have hnone : tokens seps = [] := by
      rw [← List.append_nil seps, tokens_separators_append hseps]
      rfl
    exact ⟨hnone, fun opt => by simp [encodeLine, hnone]⟩
  · rw [tokens_separators_append hseps, tokens_word_append ⟨hne, hword⟩ hrest]

/-! ### Hexadecimal literals -/

/-- The characters of the three ranges are the twenty-two digits (R88). -/
theorem isSome_hexDigit_iff (c : Char) : (hexDigit c).isSome = true ↔
    c ∈ ['0', '1', '2', '3', '4', '5', '6', '7', '8', '9', 'a', 'b', 'c', 'd', 'e', 'f',
      'A', 'B', 'C', 'D', 'E', 'F'] := by
  have hranges : (hexDigit c).isSome = true ↔ (48 ≤ c.toNat ∧ c.toNat ≤ 57) ∨
      (97 ≤ c.toNat ∧ c.toNat ≤ 102) ∨ (65 ≤ c.toNat ∧ c.toNat ≤ 70) := by
    simp only [hexDigit, Char.reduceToNat]
    split <;> [skip; split <;> [skip; split]] <;> simp <;> omega
  rw [hranges]
  simp only [List.mem_cons, List.not_mem_nil, or_false, ← Char.toNat_inj, Char.reduceToNat]
  omega

/-- Reading digits base 16 puts the value read before above them. -/
theorem hexFrom_eq_some_iff {value v : Nat} {t : Text} : hexFrom value t = some v ↔
    (∀ c ∈ t, (hexDigit c).isSome = true) ∧
      v = Nat.ofDigits 16 (t.reverse.map fun c => (hexDigit c).getD 0) + 16 ^ t.length * value := by
  induction t generalizing value with
  | nil => simp [hexFrom, eq_comm (a := v)]
  | cons c cs ih =>
    rw [hexFrom, List.forall_mem_cons]
    cases hc : hexDigit c with
    | none => simp
    | some d =>
      have hshift : 16 ^ cs.length * (16 * value + d) = 16 ^ cs.length * d + 16 ^ (cs.length + 1) * value := by
        ring
      simp only [ih, hshift, hc, Option.isSome_some, true_and, List.reverse_cons, List.map_append, List.map_cons,
        List.map_nil, Option.getD_some, Nat.ofDigits_append, Nat.ofDigits_singleton, List.length_map,
        List.length_reverse, List.length_cons, Nat.add_assoc]

theorem hexLiteral_eq_some_iff {limit v : Nat} {t : Text} :
    hexLiteral limit t = some v ↔ t ≠ [] ∧ hexFrom 0 t = some v ∧ v ≤ limit := by
  rw [hexLiteral]
  split
  · next h => simp [h]
  · next h =>
    cases hexFrom 0 t with
    | none => simp
    | some w =>
      simp only [Option.ite_none_right_eq_some, Option.some.injEq, ne_eq, h, not_false_eq_true, true_and]
      exact ⟨fun ⟨hle, heq⟩ => ⟨heq, heq ▸ hle⟩, fun ⟨heq, hle⟩ => ⟨heq ▸ hle, heq⟩⟩

/-- Settles O17: the digits are three ranges of characters, and a literal is read after the value 0. -/
theorem hexLiteralGrammar : Obligations.HexLiteralGrammar := by
  refine ⟨isSome_hexDigit_iff, by decide, by decide, by decide, fun limit t v => ?_⟩
  rw [hexLiteral_eq_some_iff, hexFrom_eq_some_iff, Nat.mul_zero, Nat.add_zero, and_assoc]

end Sys2Proof.Machine
end

section
/-! The text forms of the three formats (R84 to R87), the order of their checks (R89), a sequence of lines (R90)
and the listing (R92). -/

namespace Sys2Proof.Machine

variable {opt : Bool} {line : Text} {m : Mnemonic} {operands : List Text} {op : Byte}

/-! ### The operand rules of each format -/

theorem assembleOperands_regs (h : formatOf op = .regs) :
    assembleOperands opt op operands = assembleRegs op operands := by
  rw [assembleOperands, h]

theorem assembleOperands_imm12 (h : formatOf op = .imm12) :
    assembleOperands opt op operands = assembleImm12 op operands := by
  rw [assembleOperands, h]

theorem assembleOperands_imm16 (h : formatOf op = .imm16) :
    assembleOperands opt op operands = assembleImm16 opt op operands := by
  rw [assembleOperands, h]

theorem assembleRegs_of_length (h0 : operands.length ≠ 0) (h2 : operands.length ≠ 2) :
    assembleRegs op operands = .error .syntaxError := by
  match operands, h0, h2 with
  | [_], _, _ => rfl
  | _ :: _ :: _ :: _, _, _ => rfl

theorem assembleRegs_regNames (src dst : Reg) :
    assembleRegs op [regName src, regName dst] = .ok (packRegs op src dst) := by
  simp [assembleRegs]

theorem assembleRegs_unknown {x y : Text} (h : regOf x = none ∨ regOf y = none) :
    assembleRegs op [x, y] = .error .unknownRegister := by
  rcases h with h | h
  · simp [assembleRegs, h]
  · cases hx : regOf x <;> simp [assembleRegs, hx, h]

theorem assembleImm12_of_length (h : operands.length ≠ 4) :
    assembleImm12 op operands = .error .syntaxError := by
  match operands, h with
  | [], _ => rfl
  | [_], _ => rfl
  | [_, _], _ => rfl
  | [_, _, _], _ => rfl
  | _ :: _ :: _ :: _ :: _ :: _, _ => rfl

theorem assembleImm12_literal (a b dst : Reg) {literal : Text} {v : Nat}
    (h : hexLiteral 0xFFF literal = some v) :
    assembleImm12 op [regName a, regName b, regName dst, literal] =
      .ok (packImm12 op a b dst (BitVec.ofNat 12 v)) := by
  simp [assembleImm12, h]

theorem assembleImm12_badLiteral (a b dst : Reg) {literal : Text} (h : hexLiteral 0xFFF literal = none) :
    assembleImm12 op [regName a, regName b, regName dst, literal] = .error .syntaxError := by
  simp [assembleImm12, h]

theorem assembleImm12_unknown {x y z : Text} (h : regOf x = none ∨ regOf y = none ∨ regOf z = none)
    (literal : Text) : assembleImm12 op [x, y, z, literal] = .error .unknownRegister := by
  rw [assembleImm12]
  split
  · next hx hy hz => simp [hx, hy, hz] at h
  · rfl

theorem assembleImm16_off : assembleImm16 false op operands = .error .syntaxError := rfl

theorem assembleImm16_of_length (h : operands.length ≠ 2) :
    assembleImm16 true op operands = .error .syntaxError := by
  match operands, h with
  | [], _ => rfl
  | [_], _ => rfl
  | _ :: _ :: _ :: _, _ => rfl

theorem assembleImm16_literal (r : Reg) {literal : Text} {v : Nat} (h : hexLiteral 0xFFFF literal = some v) :
    assembleImm16 true op [regName r, literal] = .ok (packImm16 op r (BitVec.ofNat 16 v)) := by
  simp [assembleImm16, h]

theorem assembleImm16_badLiteral (r : Reg) {literal : Text} (h : hexLiteral 0xFFFF literal = none) :
    assembleImm16 true op [regName r, literal] = .error .syntaxError := by
  simp [assembleImm16, h]

theorem assembleImm16_unknown {x : Text} (h : regOf x = none) (literal : Text) :
    assembleImm16 true op [x, literal] = .error .unknownRegister := by
  simp [assembleImm16, h]

/-- Settles O13: the rules of `assembleRegs`, whose bytes are those of the entry point. -/
theorem regsTextForm : Obligations.RegsTextForm := by
  intro opt line m operands htokens hformat
  rw [encodeLine_of_tokens htokens, assembleOperands_regs hformat]
  refine ⟨?_, ?_, ?_, assembleRegs_of_length⟩
  · rintro rfl
    exact congrArg Result.ok (emitRegs_toNat (mnemonicOpcode m) 0 0).symm
  · rintro src dst rfl
    rw [assembleRegs_regNames, emitRegs_toNat]
  · rintro x y rfl h
    exact assembleRegs_unknown h

theorem emitImm12_natCast (a b base : Reg) (v : Nat) : emitImm12 op.toNat a.toNat b.toNat base.toNat v =
    packImm12 op a b base (BitVec.ofNat 12 v) := by
  rw [emitImm12, ofInt_natCast_toNat, ofInt_natCast_toNat, ofInt_natCast_toNat, ofInt_natCast_toNat,
    BitVec.ofInt_natCast]

theorem emitImm16_natCast (reg : Reg) (v : Nat) :
    emitImm16 op.toNat reg.toNat v = packImm16 op reg (BitVec.ofNat 16 v) := by
  rw [emitImm16, ofInt_natCast_toNat, ofInt_natCast_toNat, BitVec.ofInt_natCast]

/-- Settles O14. -/
theorem imm12TextForm : Obligations.Imm12TextForm := by
  intro opt line m operands htokens hformat
  rw [encodeLine_of_tokens htokens, assembleOperands_imm12 hformat]
  refine ⟨assembleImm12_of_length, ?_, ?_⟩
  · rintro a b dst literal rfl
    exact ⟨fun v hv => by rw [assembleImm12_literal a b dst hv, emitImm12_natCast],
      assembleImm12_badLiteral a b dst⟩
  · rintro x y z literal rfl h
    exact assembleImm12_unknown h literal

/-- Settles O15. -/
theorem imm16TextForm : Obligations.Imm16TextForm := by
  intro line m operands htokens hformat
  simp only [encodeLine_of_tokens htokens, assembleOperands_imm16 hformat]
  refine ⟨assembleImm16_off, assembleImm16_of_length, ?_, ?_⟩
  · rintro r literal rfl
    exact ⟨fun v hv => by rw [assembleImm16_literal r hv, emitImm16_natCast], assembleImm16_badLiteral r⟩
  · rintro x literal rfl h
    exact assembleImm16_unknown h literal

/-! ### What depends on the opcode -/

/-- The results of the same operands with two opcodes: the same error, or bytes that differ in the first one. -/
inductive AlikeButOpcode (op op' : Byte) : Result AsmError (List Byte) → Result AsmError (List Byte) → Prop where
  | error (e : AsmError) : AlikeButOpcode op op' (.error e) (.error e)
  | ok (bytes : List Byte) : AlikeButOpcode op op' (.ok (op :: bytes)) (.ok (op' :: bytes))

theorem AlikeButOpcode.error_iff {op op' : Byte} {r r' : Result AsmError (List Byte)}
    (h : AlikeButOpcode op op' r r') (e : AsmError) : r = .error e ↔ r' = .error e := by
  cases h <;> simp

theorem AlikeButOpcode.ok_iff {op op' : Byte} {r r' : Result AsmError (List Byte)}
    (h : AlikeButOpcode op op' r r') (bytes : List Byte) : r = .ok (op :: bytes) ↔ r' = .ok (op' :: bytes) := by
  cases h <;> simp

theorem assembleRegs_alike (op op' : Byte) (operands : List Text) :
    AlikeButOpcode op op' (assembleRegs op operands) (assembleRegs op' operands) := by
  match operands with
  | [] => exact .ok _
  | [_] => exact .error _
  | _ :: _ :: _ :: _ => exact .error _
  | [x, y] =>
    by_cases h : regOf x = none ∨ regOf y = none
    · rw [assembleRegs_unknown h, assembleRegs_unknown h]
      exact .error _
    · obtain ⟨hx, hy⟩ := not_or.1 h
      obtain ⟨src, rfl⟩ := exists_eq_regName hx
      obtain ⟨dst, rfl⟩ := exists_eq_regName hy
      rw [assembleRegs_regNames, assembleRegs_regNames]
      exact .ok _

theorem assembleImm12_alike (op op' : Byte) (operands : List Text) :
    AlikeButOpcode op op' (assembleImm12 op operands) (assembleImm12 op' operands) := by
  by_cases hlen : operands.length = 4
  · obtain ⟨x, y, z, literal, rfl⟩ := List.length_eq_four.1 hlen
    by_cases h : regOf x = none ∨ regOf y = none ∨ regOf z = none
    · rw [assembleImm12_unknown h, assembleImm12_unknown h]
      exact .error _
    · obtain ⟨hx, hyz⟩ := not_or.1 h
      obtain ⟨hy, hz⟩ := not_or.1 hyz
      obtain ⟨a, rfl⟩ := exists_eq_regName hx
      obtain ⟨b, rfl⟩ := exists_eq_regName hy
      obtain ⟨dst, rfl⟩ := exists_eq_regName hz
      cases hv : hexLiteral 0xFFF literal with
      | none =>
        rw [assembleImm12_badLiteral a b dst hv, assembleImm12_badLiteral a b dst hv]
        exact .error _
      | some v =>
        rw [assembleImm12_literal a b dst hv, assembleImm12_literal a b dst hv]
        exact .ok _
  · rw [assembleImm12_of_length hlen, assembleImm12_of_length hlen]
    exact .error _

theorem assembleImm16_alike (opt : Bool) (op op' : Byte) (operands : List Text) :
    AlikeButOpcode op op' (assembleImm16 opt op operands) (assembleImm16 opt op' operands) := by
  cases opt with
  | false => exact .error _
  | true =>
    by_cases hlen : operands.length = 2
    · obtain ⟨x, literal, rfl⟩ := List.length_eq_two.1 hlen
      by_cases h : regOf x = none
      · rw [assembleImm16_unknown h, assembleImm16_unknown h]
        exact .error _
      · obtain ⟨r, rfl⟩ := exists_eq_regName h
        cases hv : hexLiteral 0xFFFF literal with
        | none =>
          rw [assembleImm16_badLiteral r hv, assembleImm16_badLiteral r hv]
          exact .error _
        | some v =>
          rw [assembleImm16_literal r hv, assembleImm16_literal r hv]
          exact .ok _
    · rw [assembleImm16_of_length hlen, assembleImm16_of_length hlen]
      exact .error _

theorem assembleOperands_alike (opt : Bool) {op op' : Byte} (h : formatOf op = formatOf op')
    (operands : List Text) :
    AlikeButOpcode op op' (assembleOperands opt op operands) (assembleOperands opt op' operands) := by
  unfold assembleOperands
  rw [← h]
  cases formatOf op with
  | regs => exact assembleRegs_alike op op' operands
  | imm12 => exact assembleImm12_alike op op' operands
  | formatless => exact .error _
  | imm16 => exact assembleImm16_alike opt op op' operands

/-- Settles O16: the look-up comes before the operands, and the rules of a format look at the opcode for its
byte only. -/
theorem mnemonicIsCheckedFirst : Obligations.MnemonicIsCheckedFirst := by
  refine ⟨fun opt line name operands htokens hname => encodeLine_of_unknown htokens hname opt,
    fun opt line line' m m' operands htokens htokens' hflag => ?_⟩
  have hformat : formatOf (mnemonicOpcode m) = formatOf (mnemonicOpcode m') := by
    rw [formatOf, hflag, formatOf]
  have halike := assembleOperands_alike opt hformat operands
  rw [encodeLine_of_tokens htokens, encodeLine_of_tokens htokens']
  exact ⟨halike.error_iff, halike.ok_iff⟩

/-! ### A sequence of lines -/

/-- Lines that encode append their bytes and are counted; what follows them is encoded after them. -/
theorem encodeLinesFrom_append {good : List Text} {outs : List (List Byte)}
    (h : good.map (encodeLine opt) = outs.map .ok) (index : Nat) (output : List Byte) (rest : List Text) :
    encodeLinesFrom opt index output (good ++ rest) =
      encodeLinesFrom opt (index + good.length) (output ++ outs.flatten) rest := by
  induction good generalizing outs index output with
  | nil =>
    obtain rfl := List.map_eq_nil_iff.1 h.symm
    simp
  | cons line good ih =>
    obtain ⟨bytes, outs', rfl, hline, hgood⟩ := List.map_eq_cons_iff.1 h.symm
    rw [List.cons_append, encodeLinesFrom, ← hline]
    simp only
    rw [ih hgood.symm, List.length_cons, List.flatten_cons, List.append_assoc, Nat.add_assoc, Nat.add_comm 1]

/-- Settles O18: after the lines that encode, `encode_lines` is at the end or at the failing line. -/
theorem linesStopAtTheFirstFailure : Obligations.LinesStopAtTheFirstFailure := by
  refine fun opt => ⟨fun lines outs h => ?_, fun good bad rest outs e h hbad => ?_⟩
  · have hrun := encodeLinesFrom_append h 0 [] []
    rw [List.append_nil, List.nil_append, Nat.zero_add] at hrun
    exact hrun
  · rw [encodeLines, encodeLinesFrom_append h, encodeLinesFrom, hbad, List.nil_append, Nat.zero_add]

/-! ### The listing -/

theorem isToken_mnemonicName (m : Mnemonic) : IsToken (mnemonicName m) := by
  have hchars : (mnemonicName m).any isSeparator = false := by cases m <;> rfl
  exact ⟨by cases m <;> exact List.cons_ne_nil _ _, by simpa using hchars⟩

@[simp] theorem isToken_regName (r : Reg) : IsToken (regName r) := by
  have hchars : ∀ r : Reg, (regName r).any isSeparator = false := by decide
  exact ⟨List.cons_ne_nil _ _, by simpa using hchars r⟩

theorem isToken_hexText {n : Nat} (hn : n ≠ 0) (v : Nat) : IsToken (hexText n v) := by
  obtain ⟨k, rfl⟩ := Nat.exists_eq_succ_of_ne_zero hn
  exact ⟨by simp [hexText], isSeparator_hexText _ v⟩

/-- A listed line assembles as its tokens, since the listing sets them apart. -/
theorem encodeLine_joinTokens (opt : Bool) (m : Mnemonic) {operands : List Text}
    (h : ∀ t ∈ operands, IsToken t) :
    encodeLine opt (joinTokens (mnemonicName m :: operands)) = assembleOperands opt (mnemonicOpcode m) operands :=
  encodeLine_of_tokens (tokens_joinTokens _ (List.forall_mem_cons.2 ⟨isToken_mnemonicName m, h⟩)) opt

/-- A value that fits in `n` digits is read back from them. -/
theorem hexLiteral_hexText {limit n v : Nat} (hn : n ≠ 0) (hv : v < 16 ^ n) (hlimit : v ≤ limit) :
    hexLiteral limit (hexText n v) = some v := by
  have hread := hexFrom_hexText n v
  rw [Nat.mod_eq_of_lt hv] at hread
  obtain ⟨hne, -⟩ := isToken_hexText hn v
  exact hexLiteral_eq_some_iff.2 ⟨hne, hread, hlimit⟩

theorem encodeLine_regs_listed (opt : Bool) (hformat : formatOf (mnemonicOpcode m) = .regs) (src dst : Reg) :
    encodeLine opt (joinTokens [mnemonicName m, regName src, regName dst]) =
      .ok (packRegs (mnemonicOpcode m) src dst) := by
  rw [encodeLine_joinTokens opt m (by simp), assembleOperands_regs hformat,
    assembleRegs_regNames]

theorem encodeLine_bare_listed (opt : Bool) (hformat : formatOf (mnemonicOpcode m) = .regs) :
    encodeLine opt (joinTokens [mnemonicName m]) = .ok (packRegs (mnemonicOpcode m) 0 0) := by
  rw [encodeLine_joinTokens opt m (by simp), assembleOperands_regs hformat, assembleRegs]

theorem encodeLine_imm12_listed (opt : Bool) (hformat : formatOf (mnemonicOpcode m) = .imm12) (a b base : Reg)
    (imm : BitVec 12) :
    encodeLine opt (joinTokens [mnemonicName m, regName a, regName b, regName base, hexText 3 imm.toNat]) =
      .ok (packImm12 (mnemonicOpcode m) a b base imm) := by
  have himm : imm.toNat < 4096 := imm.isLt
  have hliteral : hexLiteral 0xFFF (hexText 3 imm.toNat) = some imm.toNat :=
    hexLiteral_hexText (by decide) himm (by omega)
  have htoken := isToken_hexText (n := 3) (by decide) imm.toNat
  rw [encodeLine_joinTokens opt m (by simp [htoken]), assembleOperands_imm12 hformat,
    assembleImm12_literal a b base hliteral, BitVec.ofNat_toNat, BitVec.setWidth_eq]

theorem encodeLine_imm16_listed (hformat : formatOf (mnemonicOpcode m) = .imm16) (reg : Reg)
    (imm16 : BitVec 16) :
    encodeLine true (joinTokens [mnemonicName m, regName reg, hexText 4 imm16.toNat]) =
      .ok (packImm16 (mnemonicOpcode m) reg imm16) := by
  have himm : imm16.toNat < 65536 := imm16.isLt
  have hliteral : hexLiteral 0xFFFF (hexText 4 imm16.toNat) = some imm16.toNat :=
    hexLiteral_hexText (by decide) himm (by omega)
  have htoken := isToken_hexText (n := 4) (by decide) imm16.toNat
  rw [encodeLine_joinTokens true m (by simp [htoken]), assembleOperands_imm16 hformat,
    assembleImm16_literal reg hliteral, BitVec.ofNat_toNat, BitVec.setWidth_eq]

/-- Settles O19: a listing is its format's tokens, which assemble to its format's bytes. -/
theorem listingAssemblesBack : Obligations.ListingAssemblesBack :=
  ⟨fun opt src dst => ⟨encodeLine_regs_listed opt rfl src dst, encodeLine_regs_listed opt rfl src dst,
      encodeLine_bare_listed opt rfl, encodeLine_bare_listed opt rfl⟩,
    fun opt a b base imm => encodeLine_imm12_listed opt rfl a b base imm,
    fun reg imm16 => ⟨encodeLine_imm16_listed rfl reg imm16, encodeLine_imm16_listed rfl reg imm16,
      encodeLine_imm16_listed rfl reg imm16, encodeLine_imm16_listed rfl reg imm16,
      encodeLine_imm16_listed rfl reg imm16, encodeLine_imm16_listed rfl reg imm16⟩⟩

end Sys2Proof.Machine
end

section
/-! Runs: of a state that a step leaves alone (R107), and cut in two at any step. -/

namespace Sys2Proof.Machine

variable {s t u : State}

theorem run_of_step_eq_self (h : step s = .next s) (n : Nat) :
    Host.Core.run Sys2Proof.core n s = .next s := by
  induction n with
  | zero => exact run_zero s
  | succ n ih => rw [run_succ n h, ih]

/-- Settles O36: a stopped core's step answers the same state. -/
theorem stoppedCoreStaysStopped : Obligations.StoppedCoreStaysStopped :=
  fun n _ hs => run_of_step_eq_self (step_of_stopped hs) n

/-- The stopped state is terminal, so a run that is still running began running. -/
theorem running_of_run_running {n : Nat} (h : Host.Core.run Sys2Proof.core n s = .next t)
    (ht : t.status = .running) : s.status = .running := by
  by_contra hs
  rw [stoppedCoreStaysStopped n s hs] at h
  cases h
  exact hs ht

theorem run_add_next {m n : Nat} (h : Host.Core.run Sys2Proof.core (m + n) s = .next t) :
    ∃ u, Host.Core.run Sys2Proof.core m s = .next u ∧ Host.Core.run Sys2Proof.core n u = .next t := by
  induction m generalizing s with
  | zero => exact ⟨s, run_zero s, by rwa [Nat.zero_add] at h⟩
  | succ m ih =>
    rw [Nat.succ_add] at h
    obtain ⟨v, hstep, hrest⟩ := run_succ_next h
    obtain ⟨u, hu, ht⟩ := ih hrest
    exact ⟨u, by rw [run_succ m hstep, hu], ht⟩

end Sys2Proof.Machine
end

section
/-! The end of a run: the `STATUS` a step leaves (R112, R150), and the stop by the bounds check (R101). -/

namespace Sys2Proof.Machine

variable {s t : State} {i : Instr} {op : Byte}

@[simp] theorem State.noDispatch_status (s : State) (op : Byte) : (s.noDispatch op).status =
    if s.strictFaults then .invalidOpcode op else s.status := by
  unfold State.noDispatch
  split <;> rfl

/-- `STATUS` after an instruction is decided by its opcode byte and the mode (R112). -/
theorem exec_status (h : exec i s = .next t) (hop : (encode i).head? = some op)
    (hrec : i.recognised = recognisedOpcode op) : t.status =
      if op = 0x00 then .halted
      else if s.strictFaults = true ∧ recognisedOpcode op = false then .invalidOpcode op
      else s.status := by
  cases hi : i.recognised with
  | false =>
    have hne : op ≠ 0x00 := by
      rintro rfl
      rw [hi] at hrec
      cases hrec
    rw [exec_of_not_recognised hi hop] at h
    cases h
    rw [if_neg hne, State.noDispatch_status, ← hrec]
    simp [hi]
  | true =>
    rw [if_neg (c := _ ∧ _) (by simp [← hrec, hi])]
    cases i with
    | hlt _ _ | nop _ _ | xor _ _ | add _ _ | beq _ _ _ _ | ldl _ _ | ldh _ _ =>
      cases h
      cases hop
      rfl
    | _ => cases hi

/-- The step of a running core that is not suspended is the stop by the bounds check or an instruction. -/
theorem step_cases_of_unsuspended (h : step s = .next t) (hs : s.status = .running)
    (hp : s.suspended = false) :
    (s.fetchInBounds = false ∧ t = s.stop .fetchOutOfBounds) ∨
      (s.fetchInBounds = true ∧ ∃ i, s.fetch = .ok i ∧ exec i s = .next t) := by
  rcases step_cases h with ⟨hstop, -⟩ | ⟨-, -, hp', -⟩ | ⟨-, -, -, hb, ht⟩ | ⟨-, -, -, hb, hi⟩
  · exact absurd hs hstop
  · simp [hp] at hp'
  · exact .inl ⟨hb, ht⟩
  · exact .inr ⟨hb, hi⟩

/-- `STATUS` after a fetched instruction. -/
theorem exec_status_of_fetch (hf : s.fetch = .ok i) (h : exec i s = .next t) :
    ∃ op, s.readByte s.pc.toNat = .ok op ∧ t.status =
      if op = 0x00 then .halted
      else if s.strictFaults = true ∧ recognisedOpcode op = false then .invalidOpcode op
      else s.status := by
  obtain ⟨op, tail, hop, -, rfl⟩ := State.fetch_ok_iff.1 hf
  exact ⟨op, hop, exec_status h (by rw [head?_encode_decodeWindow, opcodeField_windowOf])
    (by rw [recognised_decodeWindow, opcodeField_windowOf])⟩

/-- A suspended core's step leaves `STATUS` as it is. -/
theorem step_status_of_suspended (h : step s = .next t) (hp : s.suspended = true) :
    t.status = s.status := by
  rcases step_cases h with ⟨-, rfl⟩ | ⟨-, -, -, ⟨_, -, -, rfl⟩ | ⟨_, _, _, -, -, rfl⟩⟩ |
    ⟨-, -, hp', -⟩ | ⟨-, -, hp', -⟩
  · rfl
  · rfl
  · rfl
  · simp [hp] at hp'
  · simp [hp] at hp'

/-- The three conditions under which a running core's step ends the run (R112). -/
def State.EndsHere (s : State) : Prop :=
  s.suspended = false ∧ (s.memLen.val < s.pc.toNat + 4 ∨ ∃ op, s.readByte s.pc.toNat = .ok op ∧
    (op = 0x00 ∨ (s.strictFaults = true ∧ recognisedOpcode op = false)))

/-- A fetched instruction ends the run under the two conditions on its opcode byte. -/
theorem exec_stops_iff (hs : s.status = .running) (hf : s.fetch = .ok i) (h : exec i s = .next t) :
    t.status ≠ .running ↔ ∃ op, s.readByte s.pc.toNat = .ok op ∧
      (op = 0x00 ∨ (s.strictFaults = true ∧ recognisedOpcode op = false)) := by
  obtain ⟨op, hop, hstatus⟩ := exec_status_of_fetch hf h
  rw [hs] at hstatus
  simp only [hop, Result.ok.injEq, exists_eq_left', hstatus]
  split_ifs with hhlt hstrict
  · simp [hhlt]
  · simp [hstrict]
  · simp only [hhlt, hstrict, or_self, ne_eq, not_true]

theorem step_stops_iff_endsHere (hs : s.status = .running) (h : step s = .next t) :
    t.status ≠ .running ↔ s.EndsHere := by
  cases hp : s.suspended with
  | true => simp [State.EndsHere, step_status_of_suspended h hp, hs, hp]
  | false =>
    rcases step_cases_of_unsuspended h hs hp with ⟨hb, rfl⟩ | ⟨hb, i, hf, he⟩
    · have hpast : ¬ s.pc.toNat + 4 ≤ s.memLen.val := of_decide_eq_false hb
      exact iff_of_true (by simp) ⟨hp, .inl (by omega)⟩
    · have hbounds : s.pc.toNat + 4 ≤ s.memLen.val := of_decide_eq_true hb
      simp only [exec_stops_iff hs hf he, State.EndsHere, hp, true_and, or_iff_right hbounds.not_gt]

/-- Settles O34: cut at any step, a run that is still running was running there and did not end there. -/
theorem runEndsExactlyWhen : Obligations.RunEndsExactlyWhen := by
  refine ⟨fun s t hs h => step_stops_iff_endsHere hs h, fun n s t hrun ht k hk => ?_⟩
  obtain ⟨m, rfl⟩ := Nat.exists_eq_add_of_lt hk
  obtain ⟨u, hu, hrest⟩ := run_add_next (m := k) (n := m + 1) hrun
  obtain ⟨v, hstep, hv⟩ := run_succ_next hrest
  have hurun : u.status = .running := running_of_run_running hrest ht
  have hvrun : v.status = .running := running_of_run_running hv ht
  exact ⟨u, hu, hurun, fun hend => (step_stops_iff_endsHere hurun hstep).2 hend hvrun⟩

/-- A stop at any pc keeps all but what R107 and R158 name. -/
theorem State.stopped_stopAt (s : State) (pc : Word) (cause : Status) :
    s.Stopped (State.stop { s with pc := pc } cause) cause where
  context := s.sameContext_stopAt pc cause
  regs _ := rfl
  endPc := rfl
  status := rfl
  closed := by
    intro c hc
    simp [hc, closeChannel]

/-- Settles O32: past the bounds the step is the stop; inside them it runs an instruction, none of which ends
with that cause. -/
theorem boundsCheckStops : Obligations.BoundsCheckStops := by
  intro s hs ha hp
  have stops (hpast : s.memLen.val < s.pc.toNat + 4) : step s = .next (s.stop .fetchOutOfBounds) :=
    step_of_outOfBounds hs ha hp (decide_eq_false (by omega))
  refine ⟨fun hpast => ⟨_, stops hpast, rfl, s.stopped_stopAt s.pc _⟩, fun hbounds t h => ?_,
    fun hshort => ⟨_, stops (by omega), rfl⟩⟩
  rcases step_cases_of_unsuspended h hs hp with ⟨hb, -⟩ | ⟨-, i, hf, he⟩
  · exact absurd hbounds (of_decide_eq_false hb)
  · obtain ⟨op, -, hstatus⟩ := exec_status_of_fetch hf he
    rw [hstatus, hs]
    split_ifs <;> simp

end Sys2Proof.Machine
end

section
/-! The channel: what a step sends, closes or takes an answer from (R35, R108, R109, R168). -/

namespace Sys2Proof.Machine

variable {s t : State} {i : Instr}

/-- An instruction sends the pc it found, or it stops the run and closes the channel. -/
theorem exec_channel (h : exec i s = .next t) :
    (t.status = s.status ∧ t.channel = s.channel.map fun c => sendOn c s.pc) ∨
      (t.status ≠ .running ∧ t.channel = s.channel.map closeChannel) := by
  rcases exec_shape h with ⟨_, _, -, _, rfl⟩ | ⟨-, _, rfl⟩ | ⟨-, _, hcause, _, rfl⟩
  · exact .inl ⟨rfl, rfl⟩
  · exact .inl ⟨rfl, rfl⟩
  · exact .inr ⟨hcause, rfl⟩

theorem step_channel_of_unsuspended (h : step s = .next t) (hs : s.status = .running)
    (hp : s.suspended = false) :
    (t.status = .running ∧ t.channel = s.channel.map fun c => sendOn c s.pc) ∨
      (t.status ≠ .running ∧ t.channel = s.channel.map closeChannel) := by
  rcases step_cases_of_unsuspended h hs hp with ⟨-, rfl⟩ | ⟨-, i, -, he⟩
  · exact .inr ⟨by simp, rfl⟩
  · exact hs ▸ exec_channel he

/-- The step of a stopped or a suspended core leaves the channel, or it takes an acknowledgment from it. -/
theorem step_channel_of_idle (h : step s = .next t) (hidle : s.status ≠ .running ∨ s.suspended = true) :
    t.channel = s.channel ∨ ∃ c v rest, s.channel = some c ∧ c.replies = .acknowledge v :: rest ∧
      t.channel = some { c with pending := none, replies := rest } := by
  rcases step_cases h with ⟨-, rfl⟩ | ⟨-, -, -, ⟨_, -, -, rfl⟩ | ⟨c, v, rest, hc, hr, rfl⟩⟩ |
    ⟨hs, -, hp, -⟩ | ⟨hs, -, hp, -⟩
  · exact .inl rfl
  · exact .inl rfl
  · exact .inr ⟨c, v, rest, hc, hr, rfl⟩
  · simp [hs, hp] at hidle
  · simp [hs, hp] at hidle

/-- No step attaches a channel. -/
theorem run_channel_eq_none {n : Nat} (hc : s.channel = none)
    (h : Host.Core.run Sys2Proof.core n s = .next t) : t.channel = none := by
  have hhook := (nothingWritesMemory n s t h).hook
  simpa [hc] using hhook

/-- Settles O47: a core that takes an instruction sends or closes, a waiting or stopped one does neither. -/
theorem executedStepsNotify : Obligations.ExecutedStepsNotify := by
  refine ⟨fun s t c hc hs hp h => ?_, fun s t c hc hidle h => ?_, fun n s t hc h => ?_⟩
  · rcases step_channel_of_unsuspended h hs hp with ⟨ht, hd⟩ | ⟨ht, hd⟩
    · exact ⟨fun _ => by rw [hd, hc]; rfl, absurd ht⟩
    · exact ⟨fun h' => absurd h' ht, fun _ => by rw [hd, hc]; rfl⟩
  · rcases step_channel_of_idle h hidle with hd | ⟨c', _, _, hc', -, hd⟩
    · exact ⟨c, hd.trans hc, .inl rfl, rfl⟩
    · cases hc.symm.trans hc'
      exact ⟨_, hd, .inr rfl, rfl⟩
  · have htc := run_channel_eq_none hc h
    exact ⟨htc, by simp [State.suspended, htc]⟩

/-- A suspended core's step is its wait, which refuses an immediate close just as the check before it does. -/
theorem step_eq_awaitReply (hs : s.status = .running) (hp : s.suspended = true) :
    step s = s.awaitReply := by
  cases ha : s.aborted with
  | false => exact step_of_suspended hs ha hp
  | true =>
    obtain ⟨c, rest, hc, hr⟩ := State.aborted_iff.1 ha
    rw [step_of_aborted hs ha]
    simp [State.awaitReply, hc, hr]

/-- Settles O48: the step is the wait, sorted by what the observer does next. -/
theorem suspendedCoreWaits : Obligations.SuspendedCoreWaits := by
  intro s c hs hp hc
  have hstep := step_eq_awaitReply hs hp
  refine ⟨fun hr n => run_of_step_eq_self ?_ n, fun v rest hr => ?_, fun rest hr => ?_⟩
  · simp [hstep, State.awaitReply, hc, hr]
  · simp [hstep, State.awaitReply, hc, hr]
  · rcases hr with hr | hr <;> simp [hstep, State.awaitReply, hc, hr]

end Sys2Proof.Machine
end

section
/-! Loaded runs: a fully loaded Memory and an observer that only acknowledges leave a step no way to fail
(R110, R154, R178). -/

namespace Sys2Proof.Machine

variable {s t : State} {r : Refusal}

theorem State.awaitReply_refused (h : s.awaitReply = .refused r) : r = .channelAborted ∧
    ∃ c rest, s.channel = some c ∧ (c.replies = .abort :: rest ∨ c.replies = .abortWhenNotified :: rest) := by
  unfold State.awaitReply at h
  split at h
  · cases h
  · next c hc =>
    split at h
    · cases h
    · cases h
    · next rest hr =>
      cases h
      exact ⟨rfl, c, rest, hc, .inr hr⟩
    · next rest hr =>
      cases h
      exact ⟨rfl, c, rest, hc, .inl hr⟩

/-- The one refusal: a running core whose observer closes the channel, at once or in a suspension. -/
theorem step_refused (h : step s = .refused r) : s.status = .running ∧ r = .channelAborted ∧
    ∃ c rest, s.channel = some c ∧
      (c.replies = .abort :: rest ∨ (c.pending ≠ none ∧ c.replies = .abortWhenNotified :: rest)) := by
  unfold step at h
  split at h
  · cases h
  next hs =>
  refine ⟨not_not.1 hs, ?_⟩
  split at h
  · next ha =>
    cases h
    obtain ⟨c, rest, hc, hr⟩ := State.aborted_iff.1 ha
    exact ⟨rfl, c, rest, hc, .inl hr⟩
  split at h
  · next hp =>
    obtain ⟨d, a, hd, hpending⟩ := State.suspended_iff.1 hp
    obtain ⟨hr, c, rest, hc, hreplies⟩ := State.awaitReply_refused h
    cases hd.symm.trans hc
    exact ⟨hr, d, rest, hc, hreplies.imp_right fun hreplies => ⟨by simp [hpending], hreplies⟩⟩
  split at h
  · split at h
    · next i _ =>
      obtain ⟨t, ht⟩ := exec_next i s
      cases ht.symm.trans h
    · cases h
  · cases h

/-- A dutiful observer is never refused. -/
theorem step_ne_refused (hd : s.DutifulObserver) : step s ≠ .refused r := by
  intro h
  obtain ⟨-, -, c, rest, hc, hr⟩ := step_refused h
  rcases hr with hr | ⟨-, hr⟩
  · obtain ⟨v, hv⟩ := hd c hc .abort (by simp [hr])
    cases hv
  · obtain ⟨v, hv⟩ := hd c hc .abortWhenNotified (by simp [hr])
    cases hv

/-- In a fully loaded Memory no fetch meets a byte without a value. -/
theorem step_ne_fault {f : Fault} (hl : s.FullyLoaded) : step s ≠ .fault f := by
  intro h
  obtain ⟨a, -, -, -, ha, hnone⟩ := step_fault_unwrittenByte h
  obtain ⟨b, hb⟩ := hl a ha
  simp [hnone] at hb

theorem State.SameContext.fullyLoaded (h : s.SameContext t) (hl : s.FullyLoaded) : t.FullyLoaded := by
  intro a ha
  rw [h.memLen] at ha
  rw [h.mem]
  exact hl a ha

/-- A step adds nothing to what the observer has still to do. -/
theorem step_replies_subset (h : step s = .next t) {d : Channel} (hd : t.channel = some d) :
    ∃ c, s.channel = some c ∧ d.replies ⊆ c.replies := by
  by_cases hidle : s.status ≠ .running ∨ s.suspended = true
  · rcases step_channel_of_idle h hidle with hsame | ⟨c, v, rest, hc, hr, hd'⟩
    · exact ⟨d, hsame ▸ hd, List.Subset.refl _⟩
    · cases hd.symm.trans hd'
      exact ⟨c, hc, by simp [hr]⟩
  · obtain ⟨hs, hp⟩ : s.status = .running ∧ s.suspended = false := by simpa using hidle
    rcases step_channel_of_unsuspended h hs hp with ⟨-, hmap⟩ | ⟨-, hmap⟩ <;>
    · obtain ⟨c, hc, rfl⟩ := Option.map_eq_some_iff.1 (hmap.symm.trans hd)
      exact ⟨c, hc, List.Subset.refl _⟩

theorem State.DutifulObserver.step (hd : s.DutifulObserver) (h : step s = .next t) :
    t.DutifulObserver := by
  intro d htd x hx
  obtain ⟨c, hc, hsub⟩ := step_replies_subset h htd
  exact hd c hc x (hsub hx)

/-- Such a state's step answers a next state, which is such a state again. -/
theorem step_next_of_loaded (hl : s.FullyLoaded) (hd : s.DutifulObserver) :
    ∃ t, Machine.step s = .next t ∧ t.FullyLoaded ∧ t.DutifulObserver := by
  cases h : Machine.step s with
  | next t => exact ⟨t, rfl, (step_sameContext h).fullyLoaded hl, hd.step h⟩
  | fault f => exact absurd h (step_ne_fault hl)
  | refused r => exact absurd h (step_ne_refused hd)

/-- Settles O50: progress and preservation of one step, over the number of steps. -/
theorem loadedRunNeverSticks : Obligations.LoadedRunNeverSticks := by
  intro n
  induction n with
  | zero => exact fun s hl hd => ⟨s, run_zero s, hl, hd⟩
  | succ n ih =>
    intro s hl hd
    obtain ⟨u, hstep, hlu, hdu⟩ := step_next_of_loaded hl hd
    rw [run_succ n hstep]
    exact ih u hlu hdu

end Sys2Proof.Machine
end

section
/-! The load of one instruction (R178): `State.withFetchWord` places it where the next step fetches it. -/

namespace Sys2Proof

theorem decodeTableWord_eq (nbits w : Nat) :
    decodeTableWord nbits w = some (decodeWindow (windowOf (fourBytes (w % 2 ^ nbits)))) := by
  have h := decode_fields (windowOf (fourBytes (w % 2 ^ nbits)))
  simp only [fourBytes, opcodeField_windowOf, byte1Field_windowOf, byte2Field_windowOf,
    byte3Field_windowOf] at h
  rw [decodeTableWord, fourBytes, h]

namespace Machine

variable (s : State) (nbits w : Nat)

theorem State.fetchSite_add_four_le : s.fetchSite.toNat + 4 ≤ 4294967296 := by
  unfold State.fetchSite
  split
  · assumption
  · decide

theorem State.withFetchWord_fetchInBounds : (s.withFetchWord nbits w).fetchInBounds = true := by
  have hsite := s.fetchSite_add_four_le
  refine decide_eq_true ?_
  have hle : Fin.ofNat 4294967297 (s.fetchSite.toNat + 4) ≤ (s.withFetchWord nbits w).memLen :=
    le_max_right _ _
  have hval : (Fin.ofNat 4294967297 (s.fetchSite.toNat + 4)).val = s.fetchSite.toNat + 4 :=
    Nat.mod_eq_of_lt (by omega)
  exact hval ▸ hle

theorem State.withFetchWord_suspended : (s.withFetchWord nbits w).suspended = false := by
  cases hc : s.channel <;> simp [State.suspended, State.withFetchWord, hc]

/-- The load drops the closes at the head of what the observer has still to do. -/
theorem State.withFetchWord_aborted : (s.withFetchWord nbits w).aborted = false := by
  refine Bool.eq_false_iff.2 fun ha => ?_
  obtain ⟨d, rest, hd, hr⟩ := State.aborted_iff.1 ha
  obtain ⟨c, -, rfl⟩ := Option.map_eq_some_iff.1 hd
  have hhead := List.head?_dropWhile_not (· == Reply.abort) c.replies
  dsimp only at hr
  simp [hr] at hhead

/-- The bytes at the pc after the load are the bytes of the word. -/
theorem State.withFetchWord_readBytes :
    (s.withFetchWord nbits w).readBytes s.fetchSite.toNat 4 = .ok (fourBytes (w % 2 ^ nbits)) := by
  have hbounds : s.fetchSite.toNat + 4 ≤ (s.withFetchWord nbits w).memLen.val :=
    of_decide_eq_true (s.withFetchWord_fetchInBounds nbits w)
  refine State.readBytes_of_readByte (bs := fourBytes (w % 2 ^ nbits)) fun k hk =>
    State.readByte_ok_iff.2 ⟨?_, ?_⟩
  · have hk4 : k < 4 := hk
    omega
  · refine (Memory.byteAt_writeAll s.mem s.fetchSite.toNat _ _).trans ?_
    rw [if_pos (by omega), Nat.add_sub_cancel_left, List.getElem?_eq_getElem hk]

/-- Settles O21: after the load the core is ready and its fetch decodes the word. -/
theorem placedInstructionRuns : Obligations.PlacedInstructionRuns := by
  intro s nbits w _
  refine ⟨⟨_, decodeTableWord_eq nbits w, ?_⟩, rfl, le_max_left _ _, rfl, rfl, rfl⟩
  exact step_of_fetch rfl (s.withFetchWord_aborted nbits w) (s.withFetchWord_suspended nbits w)
    (s.withFetchWord_fetchInBounds nbits w) (State.fetch_of_window (s.withFetchWord_readBytes nbits w))

end Machine

end Sys2Proof
end

section
/-! The system instructions `HLT` (R120) and `NOP` (R121): a stop at the pc past the instruction, and a commit
of that pc. -/

namespace Sys2Proof.Machine

theorem exec_hlt (src dst : Reg) (s : State) :
    exec (.hlt src dst) s = .next (State.stop { s with pc := s.pc + 2 } .halted) := rfl

theorem exec_nop (src dst : Reg) (s : State) : exec (.nop src dst) s = .next (s.commit (s.pc + 2)) := rfl

/-- A commit at any cursor keeps all but the pc and sends the notification of R108. -/
theorem State.wentOn_commit (s : State) (cursor : Word) : s.WentOn (s.commit cursor) where
  context := s.sameContext_commit cursor
  endPc := rfl
  status := rfl
  notified := by
    intro c hc
    simp [hc, sendOn]

/-- The bare line of a mnemonic with the REGS format, whatever `ASM_IMM16_TEXT` is (R85). -/
theorem encodeLine_bare (opt : Bool) {m : Mnemonic} (hformat : formatOf (mnemonicOpcode m) = .regs) :
    encodeLine opt (mnemonicName m) = .ok [mnemonicOpcode m, 0x00] :=
  encodeLine_bare_listed opt hformat

/-- Settles O22: the effect of `HLT` is a stop at the pc past it, and the bounds check stops before any fetch. -/
theorem hltStopsPastItself : Obligations.HltStopsPastItself := by
  refine ⟨fun _ => decodeWindow_hlt, fun src dst s => ?_, fun s hs ha hp hpast => ?_,
    fun opt => encodeLine_bare opt rfl⟩
  · exact ⟨_, exec_hlt src dst s, rfl, rfl, s.stopped_stopAt (s.pc + 2) .halted⟩
  · obtain ⟨pastBounds, -⟩ := boundsCheckStops s hs ha hp
    obtain ⟨t, hstep, hpc, hstopped⟩ := pastBounds hpast
    exact ⟨t, hstep, hstopped.status, hstopped.endPc.trans hpc⟩

/-- Settles O23: the effect of `NOP` is a commit of the pc past it. -/
theorem nopOnlyAdvances : Obligations.NopOnlyAdvances :=
  ⟨fun _ => decodeWindow_nop,
    fun src dst s => ⟨_, exec_nop src dst s, rfl, s.getReg_commit _, s.wentOn_commit _⟩,
    fun opt => encodeLine_bare opt rfl⟩

end Sys2Proof.Machine
end

section
/-! The ALU instructions `XOR` (R125) and `ADD` (R126): one register written from both operands as they were
before the write, and a commit of the pc past the instruction. -/

namespace Sys2Proof

theorem decodeWindow_xor {w : Word} (h : opcodeField w = 0x02) :
    decodeWindow w = .xor (srcField w) (dstField w) := by
  unfold decodeWindow
  rw [h]
  rfl

theorem decodeWindow_add {w : Word} (h : opcodeField w = 0x03) :
    decodeWindow w = .add (srcField w) (dstField w) := by
  unfold decodeWindow
  rw [h]
  rfl

namespace Machine

variable {s t u : State} {src dst : Reg}

theorem exec_xor (src dst : Reg) (s : State) : exec (.xor src dst) s =
    .next ((s.setReg dst (s.getReg dst ^^^ s.getReg src)).commit (s.pc + 2)) := rfl

theorem exec_add (src dst : Reg) (s : State) : exec (.add src dst) s =
    .next ((s.setReg dst (s.getReg dst + s.getReg src)).commit (s.pc + 2)) := rfl

/-- A register write before the commit leaves the context and the notification as the commit alone does. -/
theorem State.wentOn_setReg_commit (s : State) (r : Reg) (v cursor : Word) :
    s.WentOn ((s.setReg r v).commit cursor) where
  context := (s.sameContext_setReg r v).trans (State.sameContext_commit _ cursor)
  endPc := rfl
  status := rfl
  notified := ((s.setReg r v).wentOn_commit cursor).notified

theorem exec_xor_getReg_dst (h : exec (.xor src dst) s = .next t) :
    t.getReg dst = s.getReg dst ^^^ s.getReg src := by
  cases h
  simp

theorem exec_add_getReg_dst (h : exec (.add src dst) s = .next t) :
    t.getReg dst = s.getReg dst + s.getReg src := by
  cases h
  simp

/-- An instruction with a destination leaves every other register. -/
theorem exec_getReg_of_ne_destination {i : Instr} {d r : Reg} (h : exec i s = .next t)
    (hd : i.destination = some d) (hr : r ≠ d) : t.getReg r = s.getReg r :=
  exec_getReg_of_ne h fun hd' => hr (Option.some.inj (hd'.symm.trans hd))

/-- The second `XOR` takes out the source that the first one put in, which is still there (R125). -/
theorem exec_xor_twice_getReg_dst (hne : src ≠ dst) (h : exec (.xor src dst) s = .next t)
    (h' : exec (.xor src dst) t = .next u) : u.getReg dst = s.getReg dst :=
  calc u.getReg dst
    _ = t.getReg dst ^^^ t.getReg src := exec_xor_getReg_dst h'
    _ = s.getReg dst ^^^ s.getReg src ^^^ s.getReg src := by
      rw [exec_xor_getReg_dst h, exec_getReg_of_ne_destination h rfl hne]
    _ = s.getReg dst := by rw [BitVec.xor_assoc, BitVec.xor_self, BitVec.xor_zero]

/-- `ADD` the other way reads the sum just written and the other operand as it was (R126). -/
theorem exec_add_back_getReg_src (hne : src ≠ dst) (h : exec (.add src dst) s = .next t)
    (h' : exec (.add dst src) t = .next u) : u.getReg src = s.getReg src + t.getReg dst := by
  rw [exec_add_getReg_dst h', exec_getReg_of_ne_destination h rfl hne]

/-- Settles O24: the write, the frame, and the corner cases as laws of exclusive or. -/
theorem xorWritesItsDestination : Obligations.XorWritesItsDestination := by
  refine ⟨fun _ => decodeWindow_xor, fun src dst s => ?_⟩
  have hx := exec_xor src dst s
  have hdst := exec_xor_getReg_dst hx
  refine ⟨_, hx, rfl, s.wentOn_setReg_commit dst _ _, hdst,
    fun _ hr => exec_getReg_of_ne_destination hx rfl hr, fun hsame => ?_, fun hzero => ?_,
    fun hne => ⟨_, exec_xor src dst _, exec_xor_twice_getReg_dst hne hx rfl⟩⟩
  · rw [hdst, hsame]
    exact BitVec.xor_self
  · rw [hdst, hzero]
    exact BitVec.xor_zero

/-- Settles O25: the write is the sum of the words, whose value is the sum modulo 2^32. -/
theorem addWrapsIntoItsDestination : Obligations.AddWrapsIntoItsDestination := by
  refine ⟨fun _ => decodeWindow_add, fun src dst s => ?_⟩
  have ha := exec_add src dst s
  have hdst := exec_add_getReg_dst ha
  refine ⟨_, ha, rfl, s.wentOn_setReg_commit dst _ _, ?_,
    fun _ hr => exec_getReg_of_ne_destination ha rfl hr, fun hzero => ?_,
    fun hne => ⟨_, exec_add dst src _, exec_add_back_getReg_src hne ha rfl⟩⟩
  · rw [hdst]
    exact BitVec.toNat_add _ _
  · rw [hdst, hzero]
    exact BitVec.add_zero _

end Machine

end Sys2Proof
end

section
/-! The conditional branch `BEQ` (R130) and the arithmetic of its target (R131): a commit of the target or of the
pc past the instruction, and no register written. -/

namespace Sys2Proof

theorem decodeWindow_beq {w : Word} (h : opcodeField w = 0x40) :
    decodeWindow w = .beq (srcField w) (dstField w) (baseField w) (imm12Field w) := by
  unfold decodeWindow
  rw [h]
  rfl

namespace Machine

theorem branchTaken_iff (x y : Word) : branchTaken x y = true ↔ x = y := beq_iff_eq

theorem toNat_branchTarget (base : Word) (field : BitVec 12) :
    ((branchTarget base field).toNat : Int) = ((base.toNat : Int) + smag12 field) % 2 ^ 32 :=
  toNat_ofInt_eq_emod 32 _

theorem smag12_bounds (field : BitVec 12) : -2047 ≤ smag12 field ∧ smag12 field ≤ 2047 := by
  obtain ⟨-, -, hlow, hhigh, -⟩ := signAndMagnitudeOffset.2 field
  exact ⟨hlow, hhigh⟩

/-- The integer target before it is cut: at most 2047 below the lowest address or above the highest (R131). -/
theorem integerTarget_bounds (base : Word) (field : BitVec 12) :
    -2047 ≤ (base.toNat : Int) + smag12 field ∧ (base.toNat : Int) + smag12 field ≤ 2 ^ 32 + 2046 := by
  obtain ⟨hlow, hhigh⟩ := smag12_bounds field
  have hbase : base.toNat < 2 ^ 32 := base.isLt
  constructor <;> omega

variable {s : State} {a b : Reg}

theorem exec_beq (a b base : Reg) (imm : BitVec 12) (s : State) : exec (.beq a b base imm) s =
    .next (s.commit (if s.getReg a = s.getReg b then branchTarget (s.getReg base) imm else s.pc + 4)) := by
  change execBeq a b base imm s = _
  simp only [execBeq, branchTaken_iff]

theorem exec_beq_taken (hab : s.getReg a = s.getReg b) (base : Reg) (imm : BitVec 12) :
    exec (.beq a b base imm) s = .next (s.commit (branchTarget (s.getReg base) imm)) := by
  rw [exec_beq, if_pos hab]

theorem exec_beq_not_taken (hab : s.getReg a ≠ s.getReg b) (base : Reg) (imm : BitVec 12) :
    exec (.beq a b base imm) s = .next (s.commit (s.pc + 4)) := by
  rw [exec_beq, if_neg hab]

/-- Settles O26: either way the effect is a commit, which keeps the registers; its cursor is the cut integer
target if the registers are equal, and the pc past the instruction if not. -/
theorem beqBranchesOnEquality : Obligations.BeqBranchesOnEquality := by
  refine ⟨fun _ => decodeWindow_beq, fun a b base imm s => ?_⟩
  have htarget := toNat_branchTarget (s.getReg base) imm
  have hbounds := integerTarget_bounds (s.getReg base) imm
  by_cases hab : s.getReg a = s.getReg b
  · exact ⟨_, exec_beq_taken hab base imm, s.wentOn_commit _, s.getReg_commit _, fun _ => htarget,
      absurd hab, hbounds⟩
  · exact ⟨_, exec_beq_not_taken hab base imm, s.wentOn_commit _, s.getReg_commit _, fun h => absurd h hab,
      fun _ => rfl, hbounds⟩

end Machine

end Sys2Proof
end

section
/-! The load-immediate instructions `LDL` (R135) and `LDH` (R136), and their composition (R137): with a word
written as its two half-words side by side, each puts the immediate in place of one of them. -/

namespace Sys2Proof.Machine

/-- A half-word extended by zeros (R135). -/
theorem setWidth_half (lo : BitVec 16) : lo.setWidth 32 = 0#16 ++ lo :=
  BitVec.setWidth_eq_append (by decide)

/-- A half-word extended by zeros and moved up: the shift loses no bit of it (R136). -/
theorem setWidth_half_shiftLeft (hi : BitVec 16) : hi.setWidth 32 <<< 16 = hi ++ 0#16 := by
  have h : (hi ++ 0#16).setWidth 32 = hi.setWidth 32 <<< 16 ||| (0#16).setWidth 32 :=
    BitVec.setWidth_append_eq_shiftLeft_setWidth_or
  simpa using h.symm

/-- The mask is ones above and zeros below, the extended immediate zeros above (R135). -/
theorem withLowHalf_append (hi old lo : BitVec 16) : withLowHalf (hi ++ old) lo = hi ++ lo :=
  calc withLowHalf (hi ++ old) lo
    _ = (hi ++ old) &&& (BitVec.allOnes 16 ++ 0#16) ||| (0#16 ++ lo) := by
      rw [withLowHalf, setWidth_half]
      rfl
    _ = hi ++ lo := by
      rw [BitVec.and_append, BitVec.or_append, BitVec.and_allOnes, BitVec.or_zero, BitVec.and_zero,
        BitVec.zero_or]

/-- The mask is zeros above and ones below, the shifted immediate zeros below (R136). -/
theorem withHighHalf_append (old lo hi : BitVec 16) : withHighHalf (old ++ lo) hi = hi ++ lo :=
  calc withHighHalf (old ++ lo) hi
    _ = (hi ++ 0#16) ||| (old ++ lo) &&& (0#16 ++ BitVec.allOnes 16) := by
      rw [withHighHalf, setWidth_half_shiftLeft]
      rfl
    _ = hi ++ lo := by
      rw [BitVec.and_append, BitVec.or_append, BitVec.and_zero, BitVec.or_zero, BitVec.and_allOnes,
        BitVec.zero_or]

/-- A word is its two half-words. -/
theorem halves_append (x : Word) : x.extractLsb' 16 16 ++ x.extractLsb' 0 16 = x :=
  BitVec.extractLsb'_append_extractLsb'

theorem withLowHalf_eq_append (x : Word) (lo : BitVec 16) :
    withLowHalf x lo = x.extractLsb' 16 16 ++ lo := by
  rw [← withLowHalf_append _ (x.extractLsb' 0 16), halves_append]

theorem withHighHalf_eq_append (x : Word) (hi : BitVec 16) :
    withHighHalf x hi = hi ++ x.extractLsb' 0 16 := by
  rw [← withHighHalf_append (x.extractLsb' 16 16), halves_append]

@[simp] theorem low_withLowHalf (x : Word) (lo : BitVec 16) : (withLowHalf x lo).extractLsb' 0 16 = lo := by
  rw [withLowHalf_eq_append]
  exact BitVec.extractLsb'_append_eq_right

@[simp] theorem high_withLowHalf (x : Word) (lo : BitVec 16) :
    (withLowHalf x lo).extractLsb' 16 16 = x.extractLsb' 16 16 := by
  rw [withLowHalf_eq_append]
  exact BitVec.extractLsb'_append_eq_left

@[simp] theorem high_withHighHalf (x : Word) (hi : BitVec 16) :
    (withHighHalf x hi).extractLsb' 16 16 = hi := by
  rw [withHighHalf_eq_append]
  exact BitVec.extractLsb'_append_eq_left

@[simp] theorem low_withHighHalf (x : Word) (hi : BitVec 16) :
    (withHighHalf x hi).extractLsb' 0 16 = x.extractLsb' 0 16 := by
  rw [withHighHalf_eq_append]
  exact BitVec.extractLsb'_append_eq_right

theorem withHighHalf_withLowHalf (x : Word) (lo hi : BitVec 16) :
    withHighHalf (withLowHalf x lo) hi = hi ++ lo := by
  rw [withHighHalf_eq_append, low_withLowHalf]

theorem withLowHalf_withHighHalf (x : Word) (lo hi : BitVec 16) :
    withLowHalf (withHighHalf x hi) lo = hi ++ lo := by
  rw [withLowHalf_eq_append, high_withHighHalf]

variable {s t : State} {reg : Reg} {imm16 : BitVec 16}

theorem exec_ldl (reg : Reg) (imm16 : BitVec 16) (s : State) : exec (.ldl reg imm16) s =
    .next ((s.setReg reg (withLowHalf (s.getReg reg) imm16)).commit (s.pc + 4)) := rfl

theorem exec_ldh (reg : Reg) (imm16 : BitVec 16) (s : State) : exec (.ldh reg imm16) s =
    .next ((s.setReg reg (withHighHalf (s.getReg reg) imm16)).commit (s.pc + 4)) := rfl

theorem exec_ldl_getReg_reg (h : exec (.ldl reg imm16) s = .next t) :
    t.getReg reg = withLowHalf (s.getReg reg) imm16 := by
  cases h
  simp

theorem exec_ldh_getReg_reg (h : exec (.ldh reg imm16) s = .next t) :
    t.getReg reg = withHighHalf (s.getReg reg) imm16 := by
  cases h
  simp

/-- Settles O27: the write, its two halves, and the frame. -/
theorem ldlReplacesTheLowHalf : Obligations.LdlReplacesTheLowHalf := by
  refine ⟨fun _ => decodeWindow_ldl, fun reg imm16 s => ?_⟩
  have hl := exec_ldl reg imm16 s
  have hreg := exec_ldl_getReg_reg hl
  refine ⟨_, hl, rfl, s.wentOn_setReg_commit reg _ _, hreg, ?_, ?_,
    fun _ hr => exec_getReg_of_ne_destination hl rfl hr⟩
  · rw [hreg, low_withLowHalf]
  · rw [hreg, high_withLowHalf]

/-- Settles O28: the write, its two halves, and the frame. -/
theorem ldhReplacesTheHighHalf : Obligations.LdhReplacesTheHighHalf := by
  refine ⟨fun _ => decodeWindow_ldh, fun reg imm16 s => ?_⟩
  have hh := exec_ldh reg imm16 s
  have hreg := exec_ldh_getReg_reg hh
  refine ⟨_, hh, rfl, s.wentOn_setReg_commit reg _ _, hreg, ?_, ?_,
    fun _ hr => exec_getReg_of_ne_destination hh rfl hr⟩
  · rw [hreg, high_withHighHalf]
  · rw [hreg, low_withHighHalf]

/-- Settles O29: each of the two keeps the half that the other one wrote. -/
theorem halfWordsCompose : Obligations.HalfWordsCompose := by
  intro r lo hi s
  constructor
  · refine ⟨_, exec_ldl r lo s, fun t' hkept => ⟨_, exec_ldh r hi t', ?_⟩⟩
    rw [exec_ldh_getReg_reg (exec_ldh r hi t'), hkept, exec_ldl_getReg_reg (exec_ldl r lo s),
      withHighHalf_withLowHalf]
  · refine ⟨_, exec_ldh r hi s, fun t' hkept => ⟨_, exec_ldl r lo t', ?_⟩⟩
    rw [exec_ldl_getReg_reg (exec_ldl r lo t'), hkept, exec_ldh_getReg_reg (exec_ldh r hi s),
      withLowHalf_withHighHalf]

end Sys2Proof.Machine
end

section
/-! The fault mode (R143, R153): `STRICT_FAULTS` is looked at only where an opcode has no dispatch case, so a step
that runs none is the same in both modes. -/

namespace Sys2Proof.Machine

variable {s t : State} {i : Instr}

/-- Reading consecutive bytes depends on the cells and on `MEMLEN` only. -/
theorem State.readBytes_congr (hmem : t.mem = s.mem) (hlen : t.memLen = s.memLen) (a n : Nat) :
    t.readBytes a n = s.readBytes a n := by
  induction n generalizing a with
  | zero => rfl
  | succ n ih => rw [State.readBytes, State.readBytes, State.readByte_congr s t hmem hlen, ih]

theorem State.fetch_congr (hpc : t.pc = s.pc) (hmem : t.mem = s.mem) (hlen : t.memLen = s.memLen) :
    t.fetch = s.fetch := by
  simp only [State.fetch, hpc, State.readByte_congr s t hmem hlen, State.readBytes_congr hmem hlen]

/-- The same state in a mode of `STRICT_FAULTS`. -/
def State.inMode (s : State) (mode : Bool) : State :=
  { s with strictFaults := mode }

variable (mode : Bool)

@[simp] theorem State.inMode_channel : (s.inMode mode).channel = s.channel := rfl
@[simp] theorem State.inMode_fetch : (s.inMode mode).fetch = s.fetch := State.fetch_congr rfl rfl rfl

theorem State.awaitReply_inMode (h : s.awaitReply = .next t) :
    (s.inMode mode).awaitReply = .next (t.inMode mode) := by
  unfold State.awaitReply at h ⊢
  rw [State.inMode_channel]
  split at h
  · cases h
    rfl
  · split at h <;> cases h <;> rfl

/-- A recognised instruction does not look at the mode (R105). -/
theorem exec_inMode_of_recognised (hi : i.recognised = true) (h : exec i s = .next t) :
    exec i (s.inMode mode) = .next (t.inMode mode) := by
  cases i with
  | hlt _ _ | nop _ _ | xor _ _ | add _ _ | beq _ _ _ _ | ldl _ _ | ldh _ _ =>
    cases h
    rfl
  | _ => cases hi

/-- A step that runs no reserved or unassigned opcode does the same in either mode. -/
theorem step_inMode (hrec : ∀ i, s.nextInstr = some i → i.recognised = true) (h : step s = .next t) :
    step (s.inMode mode) = .next (t.inMode mode) := by
  rcases step_cases h with ⟨hs, rfl⟩ | ⟨hs, ha, hp, -⟩ | ⟨hs, ha, hp, hb, rfl⟩ | ⟨hs, ha, hp, hb, i, hf, he⟩
  · exact step_of_stopped hs
  · rw [step_of_suspended hs ha hp] at h
    exact (step_of_suspended (s := s.inMode mode) hs ha hp).trans (State.awaitReply_inMode mode h)
  · exact step_of_outOfBounds hs ha hp hb
  · have hi : i.recognised = true := hrec i (State.nextInstr_eq_some_iff.2 ⟨hs, ha, hp, hb, hf⟩)
    have hf' : (s.inMode mode).fetch = .ok i := (State.inMode_fetch mode).trans hf
    exact (step_of_fetch (s := s.inMode mode) hs ha hp hb hf').trans (exec_inMode_of_recognised mode hi he)

/-- Settles O51: step by step, since the states after the steps have the same property. -/
theorem cleanRunsIgnoreTheFaultMode : Obligations.CleanRunsIgnoreTheFaultMode := by
  intro n
  induction n with
  | zero =>
    intro s t mode _ h
    cases h
    rfl
  | succ n ih =>
    intro s t mode hclean h
    obtain ⟨hrec, hrest⟩ := hclean
    obtain ⟨u, hstep, hrun⟩ := run_succ_next h
    have hstep' : step (s.inMode mode) = .next (u.inMode mode) := step_inMode mode hrec hstep
    exact (run_succ n hstep').trans (ih u t mode (hrest u hstep) hrun)

end Sys2Proof.Machine
end

section
/-! The opcodes without a dispatch case: the reserved ones (R140) and the unassigned ones (R142), all skipped by their
length or, under `STRICT_FAULTS`, stopped on (R153). -/

namespace Sys2Proof

theorem decodeWindow_wml {w : Word} (h : opcodeField w = 0xC2) :
    decodeWindow w = .wml (dstField w) (imm16Field w) := by
  unfold decodeWindow
  rw [h]
  rfl

theorem decodeWindow_wmh {w : Word} (h : opcodeField w = 0xC3) :
    decodeWindow w = .wmh (dstField w) (imm16Field w) := by
  unfold decodeWindow
  rw [h]
  rfl

theorem decodeWindow_wmb {w : Word} (h : opcodeField w = 0xC4) :
    decodeWindow w = .wmb (dstField w) (imm16Field w) := by
  unfold decodeWindow
  rw [h]
  rfl

theorem decodeWindow_ldc {w : Word} (h : opcodeField w = 0xC5) :
    decodeWindow w = .ldc (dstField w) (imm16Field w) := by
  unfold decodeWindow
  rw [h]
  rfl

theorem head?_emitImm16 (op : Byte) (dst value : Int) : (emitImm16 op.toNat dst value).head? = some op :=
  congrArg some (ofInt_natCast_toNat op)

namespace Machine

@[simp] theorem State.getReg_noDispatch (s : State) (op : Byte) (r : Reg) :
    (s.noDispatch op).getReg r = s.getReg r := by
  unfold State.noDispatch
  split <;> rfl

theorem State.wentOn_noDispatch {s : State} (h : s.strictFaults = false) (op : Byte) :
    s.WentOn (s.noDispatch op) := by
  rw [State.noDispatch, h]
  exact s.wentOn_commit _

theorem State.stopped_noDispatch {s : State} (h : s.strictFaults = true) (op : Byte) :
    s.Stopped (s.noDispatch op) (.invalidOpcode op) := by
  rw [State.noDispatch, h]
  exact s.stopped_stopAt s.pc _

/-- An instruction with no dispatch case is skipped by the length of its encoding, or stopped on. -/
theorem skippedOrStopped_of_not_recognised {i : Instr} {op : Byte} (hwf : i.wellFormed = true)
    (hi : i.recognised = false) (hop : (encode i).head? = some op) :
    SkippedOrStopped i op (encode i).length := by
  obtain ⟨op', tail, hencode, hlen⟩ := encode_eq_cons hwf
  obtain rfl : op' = op := by simpa [hencode] using hop
  intro s
  refine ⟨_, exec_of_not_recognised hi hop s, s.getReg_noDispatch op', fun h => ?_, fun h => ?_⟩
  · exact ⟨State.wentOn_noDispatch h op', by simp [h, hlen]⟩
  · exact ⟨State.stopped_noDispatch h op', by simp [h]⟩

/-- By default the text assembler refuses every mnemonic of the IMM16 format (R87). -/
theorem encodeLine_of_imm16 {m : Mnemonic} (hformat : formatOf (mnemonicOpcode m) = .imm16) {line : Text}
    {operands : List Text} (h : tokens line = mnemonicName m :: operands) :
    encodeLine false line = .error .syntaxError := by
  rw [encodeLine_of_tokens h, assembleOperands_imm16 hformat, assembleImm16_off]

/-- Settles O30: the effect of an opcode with no dispatch case, and the name tables and entry points of an IMM16
mnemonic. -/
theorem reservedOpcodesHaveNoEffect : Obligations.ReservedOpcodesHaveNoEffect := by
  have himm16 : ∀ m ∈ [Mnemonic.wml, .wmh, .wmb, .ldc], formatOf (mnemonicOpcode m) = .imm16 := by decide
  refine ⟨fun _ => decodeWindow_wml, fun _ => decodeWindow_wmh, fun _ => decodeWindow_wmb,
    fun _ => decodeWindow_ldc, fun reg imm16 => ?_, fun m hm => ?_⟩
  · exact ⟨skippedOrStopped_of_not_recognised rfl rfl rfl, skippedOrStopped_of_not_recognised rfl rfl rfl,
      skippedOrStopped_of_not_recognised rfl rfl rfl, skippedOrStopped_of_not_recognised rfl rfl rfl⟩
  · exact ⟨mnemonicOf_mnemonicName m, mnemonicOfOpcode_mnemonicOpcode m, head?_emitImm16 _,
      fun _ _ => encodeLine_of_imm16 (himm16 m hm)⟩

/-- Settles O31: lying in the block is being well-formed, and the rows of the decoder are those of the opcode map. -/
theorem unassignedOpcodesAreSkipped : Obligations.UnassignedOpcodesAreSkipped := by
  refine ⟨fun op b1 b2 b3 => ?_, fun w => ?_⟩
  · refine ⟨?_, ?_, ?_, ?_, ?_, ?_, ?_, ?_, ?_, ?_, ?_, ?_, ?_, ?_, ?_⟩ <;>
    exact fun hblock => skippedOrStopped_of_not_recognised hblock rfl rfl
  · obtain ⟨-, hranges, -⟩ := opcodeMapIsAPartition
    rw [row_decodeWindow]
    exact hranges (opcodeField w)

end Machine

end Sys2Proof
end

section
/-! The hook (R164): a run with a channel takes the steps of the run without it and waits between them. -/

namespace Sys2Proof.Machine

variable {s t u : State} {i : Instr}

@[simp] theorem State.detach_fetch (s : State) : s.detach.fetch = s.fetch := State.fetch_congr rfl rfl rfl

theorem State.detach_noDispatch (s : State) (op : Byte) :
    (s.noDispatch op).detach = s.detach.noDispatch op := by
  unfold State.noDispatch State.detach
  split <;> rfl

/-- No instruction looks at the channel. -/
theorem exec_detach (h : exec i s = .next t) : exec i s.detach = .next t.detach := by
  cases i with
  | hlt _ _ | nop _ _ | xor _ _ | add _ _ | beq _ _ _ _ | ldl _ _ | ldh _ _ =>
    cases h
    rfl
  | _ =>
    cases h
    exact congrArg Host.Outcome.next (s.detach_noDispatch _).symm

/-- A core that is not suspended takes the same step without its channel. -/
theorem step_detach (h : step s = .next t) (hp : s.suspended = false) :
    step s.detach = .next t.detach := by
  rcases step_cases h with ⟨hs, rfl⟩ | ⟨-, -, hp', -⟩ | ⟨hs, -, -, hb, rfl⟩ | ⟨hs, -, -, hb, i, hf, he⟩
  · exact step_of_stopped hs
  · simp [hp] at hp'
  · exact step_of_outOfBounds (s := s.detach) hs rfl rfl hb
  · have hf' : s.detach.fetch = .ok i := s.detach_fetch.trans hf
    exact (step_of_fetch (s := s.detach) hs rfl rfl hb hf').trans (exec_detach he)

/-- A suspended core's step changes nothing but the channel. -/
theorem detach_eq_of_step_suspended (h : step s = .next t) (hp : s.suspended = true) :
    t.detach = s.detach := by
  rcases step_cases h with ⟨-, rfl⟩ | ⟨-, -, -, ⟨_, -, -, rfl⟩ | ⟨_, _, _, -, -, rfl⟩⟩ |
    ⟨-, -, hp', -⟩ | ⟨-, -, hp', -⟩
  · rfl
  · rfl
  · rfl
  · simp [hp] at hp'
  · simp [hp] at hp'

/-- A core that is neither suspended nor losing its channel can take every step it takes without the channel. -/
theorem exists_step_of_step_detach (ha : s.aborted = false) (hp : s.suspended = false)
    (h : step s.detach = .next u) : ∃ t, step s = .next t ∧ t.detach = u := by
  rcases step_cases h with ⟨hs, rfl⟩ | ⟨-, -, hp', -⟩ | ⟨hs, -, -, hb, rfl⟩ | ⟨hs, -, -, hb, i, hf, he⟩
  · exact ⟨s, step_of_stopped hs, rfl⟩
  · cases hp'
  · exact ⟨_, step_of_outOfBounds hs ha hp hb, rfl⟩
  · obtain ⟨t, ht⟩ := exec_next i s
    have hf' : s.fetch = .ok i := s.detach_fetch.symm.trans hf
    refine ⟨t, (step_of_fetch (s := s) hs ha hp hb hf').trans ht, ?_⟩
    exact Host.Outcome.next.inj ((exec_detach ht).symm.trans he)

/-- The observer of an attached channel only acknowledges, and does so `k` times or more (R167). -/
def State.AcknowledgesTimes (s : State) (k : Nat) : Prop :=
  ∀ c, s.channel = some c → (∀ r ∈ c.replies, ∃ v, r = .acknowledge v) ∧ k ≤ c.replies.length

theorem State.AcknowledgesTimes.not_aborted {k : Nat} (h : s.AcknowledgesTimes k) : s.aborted = false :=
  State.aborted_of_dutiful fun c hc => (h c hc).1

theorem State.AcknowledgesTimes.mono {k m : Nat} (h : s.AcknowledgesTimes m) (hle : k ≤ m) :
    s.AcknowledgesTimes k :=
  fun c hc => (h c hc).imp_right hle.trans

/-- A suspended core takes one acknowledgment, which ends the suspension and uses up that one only. -/
theorem State.AcknowledgesTimes.resume {k : Nat} (h : s.AcknowledgesTimes (k + 1)) (hs : s.status = .running)
    (hp : s.suspended = true) : ∃ t, Machine.step s = .next t ∧ t.suspended = false ∧ t.AcknowledgesTimes k := by
  obtain ⟨c, _, hc, -⟩ := State.suspended_iff.1 hp
  obtain ⟨hall, hlen⟩ := h c hc
  obtain ⟨-, htake, -⟩ := suspendedCoreWaits s c hs hp hc
  obtain ⟨r, rest, hr⟩ := List.exists_cons_of_length_pos (Nat.zero_lt_of_lt hlen)
  obtain ⟨v, rfl⟩ := hall r (by simp [hr])
  refine ⟨_, htake v rest hr, rfl, ?_⟩
  rintro _ ⟨⟩
  rw [hr] at hall hlen
  exact ⟨fun r hmem => hall r (List.mem_cons_of_mem _ hmem), Nat.le_of_succ_le_succ hlen⟩

/-- A core that is not suspended takes no acknowledgment. -/
theorem State.AcknowledgesTimes.step {k : Nat} (h : s.AcknowledgesTimes k) (hs : s.status = .running)
    (hp : s.suspended = false) (hst : step s = .next t) : t.AcknowledgesTimes k := by
  intro d hd
  rcases step_channel_of_unsuspended hst hs hp with ⟨-, hmap⟩ | ⟨-, hmap⟩ <;>
  · obtain ⟨c, hc, rfl⟩ := Option.map_eq_some_iff.1 (hmap.symm.trans hd)
    exact h c hc

theorem run_add {m : Nat} (n : Nat) (h : Host.Core.run Sys2Proof.core m s = .next u) :
    Host.Core.run Sys2Proof.core (m + n) s = Host.Core.run Sys2Proof.core n u := by
  induction m generalizing s with
  | zero =>
    cases h
    rw [Nat.zero_add]
  | succ m ih =>
    obtain ⟨v, hstep, hrest⟩ := run_succ_next h
    rw [Nat.succ_add, run_succ _ hstep, ih hrest]

/-- One step of the run without the channel costs the observer at most one acknowledgment. -/
theorem exists_run_of_step_detach {k : Nat} (hk : s.AcknowledgesTimes (k + 1)) (h : step s.detach = .next u) :
    ∃ n t, Host.Core.run Sys2Proof.core n s = .next t ∧ t.detach = u ∧ t.AcknowledgesTimes k := by
  by_cases hs : s.status = .running
  · cases hp : s.suspended with
    | false =>
      obtain ⟨t, hst, rfl⟩ := exists_step_of_step_detach hk.not_aborted hp h
      exact ⟨1, t, run_succ 0 hst, rfl, (hk.step hs hp hst).mono k.le_succ⟩
    | true =>
      obtain ⟨v, hsv, hpv, hkv⟩ := hk.resume hs hp
      have hsame : v.detach = s.detach := detach_eq_of_step_suspended hsv hp
      obtain ⟨t, hvt, rfl⟩ := exists_step_of_step_detach hkv.not_aborted hpv (hsame ▸ h)
      have hsv' : v.status = .running := (step_status_of_suspended hsv hp).trans hs
      exact ⟨2, t, (run_succ 1 hsv).trans (run_succ 0 hvt), rfl, hkv.step hsv' hpv hvt⟩
  · cases (step_of_stopped (s := s.detach) hs).symm.trans h
    exact ⟨0, s, run_zero s, rfl, hk.mono k.le_succ⟩

/-- Without the channel a run takes its steps but for the waiting. -/
theorem exists_run_detach {n : Nat} (h : Host.Core.run Sys2Proof.core n s = .next t) :
    ∃ m, m ≤ n ∧ Host.Core.run Sys2Proof.core m s.detach = .next t.detach := by
  induction n generalizing s with
  | zero =>
    cases h
    exact ⟨0, le_rfl, run_zero _⟩
  | succ n ih =>
    obtain ⟨u, hstep, hrun⟩ := run_succ_next h
    obtain ⟨m, hle, hm⟩ := ih hrun
    cases hp : s.suspended with
    | false => exact ⟨m + 1, Nat.succ_le_succ hle, (run_succ m (step_detach hstep hp)).trans hm⟩
    | true => exact ⟨m, Nat.le_succ_of_le hle, detach_eq_of_step_suspended hstep hp ▸ hm⟩

/-- With an observer that acknowledges often enough, a run comes to what it comes to without the channel. -/
theorem exists_run_of_run_detach {m : Nat} (hk : s.AcknowledgesTimes (m + 1))
    (h : Host.Core.run Sys2Proof.core m s.detach = .next u) :
    ∃ n t, Host.Core.run Sys2Proof.core n s = .next t ∧ t.detach = u := by
  induction m generalizing s with
  | zero =>
    cases h
    exact ⟨0, s, run_zero s, rfl⟩
  | succ m ih =>
    obtain ⟨w, hstep, hrun⟩ := run_succ_next h
    obtain ⟨k, v, hv, rfl, hkv⟩ := exists_run_of_step_detach hk hstep
    obtain ⟨n, t, ht, htu⟩ := ih hkv hrun
    exact ⟨k + n, t, (run_add n hv).trans ht, htu⟩

/-- Settles O49: forwards, a step is the detached step or a wait; backwards, a detached step is one step, after
at most one acknowledgment. -/
theorem hookChangesNoResult : Obligations.HookChangesNoResult :=
  ⟨fun _ _ _ h => exists_run_detach h, fun _ _ _ hk h => exists_run_of_run_detach hk h⟩

end Sys2Proof.Machine
end

section
/-! The refusal of a run whose observer closes the channel (R168, U1). -/

namespace Sys2Proof.Machine

/-- Settles O53: an immediate close is met before anything else, one in a suspension by the wait. -/
theorem observerClosingTheChannelIsRefused : Obligations.ObserverClosingTheChannelIsRefused := by
  intro s r
  refine ⟨step_refused, ?_⟩
  rintro ⟨hs, rfl, c, rest, hc, hr | ⟨hpending, hr⟩⟩
  · exact step_of_aborted hs (State.aborted_iff.2 ⟨c, rest, hc, hr⟩)
  · obtain ⟨a, ha⟩ := Option.ne_none_iff_exists'.1 hpending
    have hp : s.suspended = true := State.suspended_iff.2 ⟨c, a, hc, ha⟩
    obtain ⟨-, -, hclose⟩ := suspendedCoreWaits s c hs hp hc
    exact hclose rest (.inl hr)

end Sys2Proof.Machine
end

section
/-! The stop (R150, R153, R157, R158): what the stopping step leaves, and what its cause says. -/

namespace Sys2Proof.Machine

variable {s t : State} {i : Instr}

/-- An instruction that ends the run is a stop and nothing else. -/
theorem exec_stopped (h : exec i s = .next t) (hs : s.status = .running) (ht : t.status ≠ .running) :
    s.Stopped t t.status := by
  rcases exec_shape h with ⟨_, _, -, _, rfl⟩ | ⟨-, _, rfl⟩ | ⟨-, cause, -, pc, rfl⟩
  · exact absurd hs ht
  · exact absurd hs ht
  · exact s.stopped_stopAt pc cause

theorem step_stopped (h : step s = .next t) (hs : s.status = .running) (ht : t.status ≠ .running) :
    s.Stopped t t.status := by
  cases hp : s.suspended with
  | true => exact absurd ((step_status_of_suspended h hp).trans hs) ht
  | false =>
    rcases step_cases_of_unsuspended h hs hp with ⟨-, rfl⟩ | ⟨-, i, -, he⟩
    · exact s.stopped_stopAt s.pc _
    · exact exec_stopped he hs ht

/-- Only `HLT` moves the pc in the step that ends the run. -/
theorem step_pc_of_stopping (h : step s = .next t) (hs : s.status = .running) (ht : t.status ≠ .running)
    (hhalt : t.status ≠ .halted) : t.pc = s.pc := by
  cases hi : s.nextInstr with
  | none =>
    obtain ⟨-, hpc, -⟩ := step_of_nextInstr_none h hi
    exact hpc
  | some i =>
    obtain ⟨op, -, heff⟩ := step_pcEffect h hi
    cases heff with
    | advance hstatus _ => exact absurd (hstatus.trans hs) ht
    | branch _ _ _ _ _ _ hstatus _ => exact absurd (hstatus.trans hs) ht
    | halt hstatus _ => exact absurd hstatus hhalt
    | stopInPlace _ hpc => exact hpc

/-- Settles O35: the stop's frame, and the pc sorted by whether the cause is `HLT`. -/
theorem stopsArePrecise : Obligations.StopsArePrecise := by
  intro s t hs h ht
  refine ⟨step_stopped h hs ht, ?_⟩
  split
  · next hhalt => exact step_pc_of_halted h hs hhalt
  · next hhalt => exact step_pc_of_stopping h hs ht hhalt

theorem statusCode_eq_zero_iff (st : Status) : statusCode st = 0 ↔ st = .running := by
  cases st <;> simp [statusCode]

theorem statusCode_eq_one_iff (st : Status) : statusCode st = 1 ↔ st = .halted := by
  cases st <;> simp [statusCode]

theorem statusCode_eq_two_iff (st : Status) : statusCode st = 2 ↔ st = .fetchOutOfBounds := by
  cases st <;> simp [statusCode]

theorem statusCode_eq_three_iff (st : Status) : statusCode st = 3 ↔ ∃ op, st = .invalidOpcode op := by
  cases st <;> simp [statusCode]

/-- `END_PC` after the stopping step: the pc, which only `HLT` has moved. -/
theorem step_endPc (h : step s = .next t) (hs : s.status = .running) (ht : t.status ≠ .running) :
    t.endPc = if t.status = .halted then s.pc + 2 else s.pc := by
  obtain ⟨hstopped, hpc⟩ := stopsArePrecise s t hs h ht
  exact hstopped.endPc.trans hpc

/-- `STATUS` after a step of a core that waits for no one: the bounds check decides first, then the opcode byte
and the mode (R157). -/
theorem step_status_of_unsuspended (h : step s = .next t) (hs : s.status = .running)
    (hp : s.suspended = false) :
    (s.memLen.val < s.pc.toNat + 4 ∧ t.status = .fetchOutOfBounds) ∨
      (s.pc.toNat + 4 ≤ s.memLen.val ∧ ∃ op, s.readByte s.pc.toNat = .ok op ∧ t.status =
        if op = 0x00 then .halted
        else if s.strictFaults = true ∧ recognisedOpcode op = false then .invalidOpcode op
        else .running) := by
  rcases step_cases_of_unsuspended h hs hp with ⟨hb, rfl⟩ | ⟨hb, i, hf, he⟩
  · have hpast : ¬ s.pc.toNat + 4 ≤ s.memLen.val := of_decide_eq_false hb
    exact .inl ⟨by omega, rfl⟩
  · exact .inr ⟨of_decide_eq_true hb, hs ▸ exec_status_of_fetch hf he⟩

/-- Settles O33: the cause is read off `STATUS`, and `END_PC` off the cause. -/
theorem stopCauseAndPriority : Obligations.StopCauseAndPriority := by
  intro s t hs hp h
  have hend := step_endPc h hs
  simp only [statusCode_eq_zero_iff, statusCode_eq_one_iff, statusCode_eq_two_iff, statusCode_eq_three_iff]
  rcases step_status_of_unsuspended h hs hp with ⟨hpast, hst⟩ | ⟨hbounds, op, hop, hst⟩
  · have hnot : ¬ s.pc.toNat + 4 ≤ s.memLen.val := by omega
    simp [hst, hpast, hnot, hend]
  · have hnot : ¬ s.memLen.val < s.pc.toNat + 4 := by omega
    have hhlt : recognisedOpcode 0#8 = true := rfl
    simp only [hop, hbounds, hnot, Result.ok.injEq, exists_eq_left', true_and]
    rw [BitVec.ofNat_eq_ofNat] at hst
    split_ifs at hst with h0 hstrict
    · simp [hst, h0, hhlt, hend]
    · simp [hst, h0, hstrict, hend]
    · simp [hst, h0, hstrict]

end Sys2Proof.Machine
end

section
/-! The start of a run (R39, R175): what it keeps, what it resets, and that it gives a legal state. -/

namespace Sys2Proof.Machine

variable {s : State}

@[simp] theorem State.suspended_startRun (s : State) : s.startRun.suspended = false := by
  cases hc : s.channel <;> simp [State.suspended, hc]

theorem State.sameContext_startRun (s : State) : s.SameContext s.startRun :=
  .of_fields rfl rfl rfl rfl Option.isSome_map

/-- Of the state before, only Memory has to be in order: a start owes no `END_PC` and opens the channel. -/
theorem State.legal_startRun (hwf : Memory.wf s.mem = true) (hin : ∀ c ∈ s.mem, c.1 < s.memLen.val) :
    s.startRun.Legal where
  memCanonical := hwf
  cellsInside := hin
  endRecorded := absurd s.startRun_status
  stoppedNotSuspended := absurd s.startRun_status
  closedAtStop := by
    intro d hd
    obtain ⟨c, -, rfl⟩ := Option.map_eq_some_iff.1 hd
    simp

/-- The state at reset is a started run, and its Memory lists no cell. -/
theorem State.legal_reset : State.reset.Legal := by
  obtain ⟨-, -, -, -, hstart⟩ := resetIsTheStartOfARun
  exact hstart ▸ State.legal_startRun (s := State.reset) rfl (List.forall_mem_nil _)

/-- Settles O45: the start's own fields, its frame, and the invariant from canonical Memory alone. -/
theorem startedRunIsLegal : Obligations.StartedRunIsLegal :=
  ⟨fun s hwf hin => ⟨rfl, rfl, s.suspended_startRun, s.getReg_startRun, s.sameContext_startRun, rfl,
    State.legal_startRun hwf hin⟩, State.legal_reset⟩

end Sys2Proof.Machine
end
